-- ==== Sys2Proof/Word.lean ====
section
/-! DEFINITION. The word types of the CRA control block (00_scope.md R8, R9) and the motor index. -/

namespace Sys2Proof

/-- A u8, or an i8 read by `toInt` (00_scope.md R9). -/
abbrev Byte := BitVec 8

/-- One bit: a pin level, a motor id (00_scope.md R9). -/
abbrev Bit := BitVec 1

/-- An i16 of the block: QPOS, TARGET, a delta (00_scope.md R7 `POS_WIDTH`). -/
abbrev Word := BitVec 16

/-- The motor index of a motor-node instance, `N_MOTORS = 2` (00_scope.md R7, decision D3; log 15). -/
inductive Motor where
  | m0
  | m1
deriving DecidableEq, Repr, Inhabited

end Sys2Proof
end

