-- ==== Sys2Proof/Config.lean ====
section
/-! DEFINITION. The implementation parameters of 00_scope.md R7 and the free values: what the spec leaves open. -/

namespace Sys2Proof

/-- What CMD.PACK does on overflow (R7, R142). -/
inductive OvfPolicy where
  | clampAndFlag
  | truncateAndFlag
deriving DecidableEq, Repr, Inhabited

/-- How the receiver widens the 13-bit field (R7, R144). -/
inductive UnpackSignMode where
  | zeroExtend
  | signExtend13
deriving DecidableEq, Repr, Inhabited

/-- The eight legal maps from pin words to phase codes (R7, R121). -/
inductive PhaseMap where
  | g0
  | g1
  | g2
  | g3
  | g4
  | g5
  | g6
  | g7
deriving DecidableEq, Repr, Inhabited

/-- Whether a non-adjacent transition is reported (R7, R125). -/
inductive EncoderFaultReport where
  | off
  | stickyFlag
deriving DecidableEq, Repr, Inhabited

/-- The arithmetic of the servo error (R7, R171). -/
inductive ErrArith where
  | exact
  | wrap16
deriving DecidableEq, Repr, Inhabited

/-- A direction output (R26). -/
inductive Dir where
  | fwd
  | rev
deriving DecidableEq, Repr, Inhabited

/-- One move of the receiving motor node or of its encoders while the bus idles between the two bytes of a
CMD.SEND (R86, R246): a micro-step of the sequencer, or a pin change (log 11). -/
inductive GapMove where
  | ustep
  | pin (m : Motor) (a b : Bit)
deriving DecidableEq, Repr, Inhabited

/-- The configuration of one motor-node instance: the parameters of R7 that a rule reads, and the OPEN numbers
`TPR[m]` (R24) and `MIN_GAP` (R246), which no rule reads.  It is fixed for the life of the instance (R39).
DESIGN CHOICE, safe: it stands in State, so that a claim about every state holds for every legal value (log 6). -/
structure Config where
  ovfPolicy : OvfPolicy
  unpackSignMode : UnpackSignMode
  phaseMap : PhaseMap
  encoderFaultReport : EncoderFaultReport
  errArith : ErrArith
  /-- `TPR[0]`; DESIGN CHOICE, safe: the OPEN type is held as a natural number (log 7). -/
  tpr0 : Nat
  /-- `TPR[1]`. -/
  tpr1 : Nat
  /-- `MIN_GAP`, in a unit the spec does not give (log 7). -/
  minGap : Nat
deriving DecidableEq, Repr, Inhabited

/-- `TPR[m]`, OPEN (R7, R24): a free value (log 7). -/
opaque Config.ticksPerRev : Motor → Nat

/-- `MIN_GAP`, OPEN (R7, R246): a free value (log 7). -/
opaque Config.minIdleGap : Nat

/-- The draw of DIR[m] by the `n`-th construction (R26, R240): a free value (log 4). -/
opaque Config.drawDir : Nat → Motor → Dir

/-- The draw of RX_MOTOR by the `n`-th construction (R32, R240): a free value (log 4). -/
opaque Config.drawRxMotor : Nat → Bit

/-- The draw of RX_HIGH6 by the `n`-th construction (R32, R240): a free value (log 4). -/
opaque Config.drawRxHigh6 : Nat → BitVec 6

/-- The draw of RX_BYTE by the `n`-th construction (R33, R240): a free value (log 4). -/
opaque Config.drawRxByte : Nat → Byte

/-- What happens at the receiving node between the two bytes of a CMD.SEND (R86, R246): a free value (log 11). -/
opaque Config.sendGap : Nat → List GapMove

/-- Every parameter at its default (R7), the OPEN ones free. -/
def Config.standard : Config where
  ovfPolicy := .clampAndFlag
  unpackSignMode := .zeroExtend
  phaseMap := .g0
  encoderFaultReport := .off
  errArith := .exact
  tpr0 := Config.ticksPerRev .m0
  tpr1 := Config.ticksPerRev .m1
  minGap := Config.minIdleGap

end Sys2Proof
end

