-- ==== Sys2Proof/Syntax.lean ====
section
/-! DEFINITION. The operations and wire-word classes of spec/opcode_table.json, one constructor a row, and the
ports that carry them (30_encoding.md R70, R85). -/

namespace Sys2Proof

/-- One constructor for each row of spec/opcode_table.json, in the table's order. -/
inductive Instr where
  /-- TLM.ENC v (R100): `v` an i8 channel value. -/
  | tlmEnc (v : Byte)
  /-- TLM.DEC b (R101). -/
  | tlmDec (b : Byte)
  /-- TLM.ENCF x, y, roll, pitch, b1, b2 (R102). -/
  | tlmEncf (x y roll pitch b1 b2 : Byte)
  /-- TLM.DECF B0, ..., B5 (R103): one datagram, of any length, refused unless the length is 6 (R56). -/
  | tlmDecf (datagram : List Byte)
  /-- QDEC.SAMPLE m (R122). -/
  | qdecSample (m : Motor)
  /-- CMD.PACK d, id (R140). -/
  | cmdPack (d : Word) (id : Bit)
  /-- CMD.RX b (R145). -/
  | cmdRx (b : Byte)
  /-- SERVO.STEP m (R170). -/
  | servoStep (m : Motor)
  /-- EV.PIN m, a, b (R190). -/
  | evPin (m : Motor) (a b : Bit)
  /-- EV.RXBYTE b (R191). -/
  | evRxbyte (b : Byte)
  /-- USTEP (R192). -/
  | ustep
  /-- RESET a0, b0, a1, b1 (R240). -/
  | reset (a0 b0 a1 b1 : Bit)
  /-- PASS (R86, R201). -/
  | pass
  /-- CMD.SEND d, id (R86). -/
  | cmdSend (d : Word) (id : Bit)
  /-- EV.PINS m, a, b (R86). -/
  | evPins (m : Motor) (a b : Bit)
  /-- CMD_MSW, the byte `1 i h h h h h h` (R71). -/
  | cmdMsw (id : Bit) (hi6 : BitVec 6)
  /-- CMD_LSW, the byte `0 l l l l l l l` (R72). -/
  | cmdLsw (lo7 : BitVec 7)
  /-- TLM_ZERO, the byte 0x00 (R76). -/
  | tlmZero
  /-- TLM_LOW, the bytes 0x01 to 0x08 (R76). -/
  | tlmLow (m : BitVec 4)
  /-- TLM_HIGH, the bytes 0x09 to 0xFF: high nibble `h`, low nibble `x` ignored (R76). -/
  | tlmHigh (h x : BitVec 4)
  /-- The combo keys of motor m's decoder (R81, R82). -/
  | qcombo0000 (m : Motor)
  | qcombo0001 (m : Motor)
  | qcombo0010 (m : Motor)
  | qcombo0011 (m : Motor)
  | qcombo0100 (m : Motor)
  | qcombo0101 (m : Motor)
  | qcombo0110 (m : Motor)
  | qcombo0111 (m : Motor)
  | qcombo1000 (m : Motor)
  | qcombo1001 (m : Motor)
  | qcombo1010 (m : Motor)
  | qcombo1011 (m : Motor)
  | qcombo1100 (m : Motor)
  | qcombo1101 (m : Motor)
  | qcombo1110 (m : Motor)
  | qcombo1111 (m : Motor)
deriving DecidableEq, Repr

/-- The port or event that carries an operation or a wire word, and so selects its meaning (R70). -/
inductive Port where
  | tlmEnc
  | tlmDec
  | tlmEncf
  | tlmDecf
  | qdecSample
  | cmdPack
  | cmdRx
  | servoStep
  | evPin
  | evRxbyte
  | ustep
  | reset
  | pass
  | cmdSend
  | evPins
  /-- The receiver's decoder of command bytes (R73). -/
  | cmdByte
  /-- The telemetry decoder's channel bytes (R76). -/
  | tlmByte
  /-- The step table of motor m's quadrature decoder, addressed by a combo key (R81). -/
  | qdecKey (m : Motor)
deriving DecidableEq, Repr

/-- One delivery: the bytes that arrive together at one port (log 1, log 2). -/
structure Delivery where
  port : Port
  payload : List Byte
deriving DecidableEq, Repr

end Sys2Proof
end

