-- ==== Sys2Proof/WellFormed.lean ====
section
/-! DEFINITION. Which terms of `Instr` are legal: the operand preconditions and word classes of the spec. -/

namespace Sys2Proof

/-- `TLM_RANGE`: a legal channel value, an integer in [-8, 8] (00_scope.md R7, 41_telemetry_codec.md R100). -/
def channelValueLegal (v : Byte) : Bool :=
  decide (-8 ≤ v.toInt) && decide (v.toInt ≤ 8)

/-- The operand checks of each row.  TLM.ENC and TLM.ENCF take values in [-8, 8] (R100, R102), TLM.DECF takes
six bytes (R103), TLM_LOW holds the bytes 1 to 8 and TLM_HIGH the bytes above 8 (R76). -/
def Instr.wf : Instr → Bool
  | .tlmEnc v => channelValueLegal v
  | .tlmDec _ => true
  | .tlmEncf x y roll pitch b1 b2 =>
    channelValueLegal x && channelValueLegal y && channelValueLegal roll
      && channelValueLegal pitch && channelValueLegal b1 && channelValueLegal b2
  | .tlmDecf datagram => datagram.length == 6
  | .qdecSample _ => true
  | .cmdPack _ _ => true
  | .cmdRx _ => true
  | .servoStep _ => true
  | .evPin _ _ _ => true
  | .evRxbyte _ => true
  | .ustep => true
  | .reset _ _ _ _ => true
  | .pass => true
  | .cmdSend _ _ => true
  | .evPins _ _ _ => true
  | .cmdMsw _ _ => true
  | .cmdLsw _ => true
  | .tlmZero => true
  | .tlmLow m => decide (1 ≤ m.toNat) && decide (m.toNat ≤ 8)
  | .tlmHigh h x => decide (8 < 16 * h.toNat + x.toNat)
  | .qcombo0000 _ => true
  | .qcombo0001 _ => true
  | .qcombo0010 _ => true
  | .qcombo0011 _ => true
  | .qcombo0100 _ => true
  | .qcombo0101 _ => true
  | .qcombo0110 _ => true
  | .qcombo0111 _ => true
  | .qcombo1000 _ => true
  | .qcombo1001 _ => true
  | .qcombo1010 _ => true
  | .qcombo1011 _ => true
  | .qcombo1100 _ => true
  | .qcombo1101 _ => true
  | .qcombo1110 _ => true
  | .qcombo1111 _ => true

end Sys2Proof
end

