-- ==== Sys2Proof/Decode.lean ====
section
/-! DEFINITION. The decoder, total on every port and every list of bytes, and the encoder written from the same
tables (30_encoding.md R70 to R82). -/

namespace Sys2Proof

/-- Why a delivery is no operation. -/
inductive Reject where
  /-- The payload is not as long as the port's operands (R70, R84; log 2). -/
  | payloadLength
  /-- An operand byte names no motor of 0 .. N_MOTORS − 1 (R122, R170, R190). -/
  | motorIndex
  /-- A 1-bit operand arrived as a byte other than 0 and 1 (R85; log 2). -/
  | bitOperand
  /-- A combo key has four bits (R81). -/
  | keyWidth
deriving DecidableEq, Repr

/-- The motor that a 1-bit motor id selects (R71, R147). -/
def motorOfBit (b : Bit) : Motor :=
  if b = 1#1 then .m1 else .m0

/-- The 1-bit id of a motor (R71). -/
def motorBit : Motor → Bit
  | .m0 => 0#1
  | .m1 => 1#1

/-- The byte that names a motor at an operation's own port (log 2). -/
def motorByte : Motor → Byte
  | .m0 => 0x00#8
  | .m1 => 0x01#8

/-- A motor index operand, m ∈ {0, …, N_MOTORS − 1} (R122). -/
def motorOfByte (b : Byte) : Except Reject Motor :=
  if b = 0x00#8 then .ok .m0 else if b = 0x01#8 then .ok .m1 else .error .motorIndex

/-- The byte that carries a 1-bit operand at an operation's own port (log 2). -/
def bitByte (b : Bit) : Byte :=
  b.zeroExtend 8

/-- A 1-bit operand: the byte 0 or 1 (log 2). -/
def bitOfByte (b : Byte) : Except Reject Bit :=
  if b = 0x00#8 then .ok 0#1 else if b = 0x01#8 then .ok 1#1 else .error .bitOperand

/-- The MSW byte `1 i h h h h h h` (R71). -/
def mswByte (id : Bit) (hi6 : BitVec 6) : Byte :=
  1#1 ++ id ++ hi6

/-- The LSW byte `0 l l l l l l l` (R72). -/
def lswByte (lo7 : BitVec 7) : Byte :=
  0#1 ++ lo7

/-- Bit 7 tells an MSW from an LSW (R73). -/
def isMsw (b : Byte) : Bool :=
  b.getLsbD 7

/-- Bit 6 of an MSW, the motor id (R71). -/
def mswId (b : Byte) : Bit :=
  b.extractLsb' 6 1

/-- Bits 5:0 of an MSW (R71). -/
def mswHigh6 (b : Byte) : BitVec 6 :=
  b.extractLsb' 0 6

/-- Bits 6:0 of an LSW (R72). -/
def lswLow7 (b : Byte) : BitVec 7 :=
  b.extractLsb' 0 7

/-- A command byte is an MSW or an LSW, by bit 7 alone (R73). -/
def decodeCmdByte (b : Byte) : Instr :=
  if isMsw b then .cmdMsw (mswId b) (mswHigh6 b) else .cmdLsw (lswLow7 b)

/-- The class of a telemetry byte: TLM_ZERO first, then LOW for `b ≤ 8`, then HIGH (R76 and the table's priorities). -/
def decodeTlmByte (b : Byte) : Instr :=
  if b = 0x00#8 then .tlmZero
  else if b.toNat ≤ 8 then .tlmLow (b.extractLsb' 0 4)
  else .tlmHigh (b.extractLsb' 4 4) (b.extractLsb' 0 4)

/-- The row of a combo key at motor m's decoder (R82). -/
def decodeKey (m : Motor) (key : BitVec 4) : Instr :=
  match key.toNat with
  | 0 => .qcombo0000 m
  | 1 => .qcombo0001 m
  | 2 => .qcombo0010 m
  | 3 => .qcombo0011 m
  | 4 => .qcombo0100 m
  | 5 => .qcombo0101 m
  | 6 => .qcombo0110 m
  | 7 => .qcombo0111 m
  | 8 => .qcombo1000 m
  | 9 => .qcombo1001 m
  | 10 => .qcombo1010 m
  | 11 => .qcombo1011 m
  | 12 => .qcombo1100 m
  | 13 => .qcombo1101 m
  | 14 => .qcombo1110 m
  | _ => .qcombo1111 m

/-- The two bytes of an i16 operand, high byte first (log 2). -/
def wordBytes (d : Word) : List Byte :=
  [d.extractLsb' 8 8, d.extractLsb' 0 8]

/-- The i16 operand of two bytes, high byte first (log 2). -/
def wordOfBytes (hi lo : Byte) : Word :=
  hi ++ lo

/-- `op` of one motor index, the whole payload. -/
def decodeMotor (op : Motor → Instr) : List Byte → Except Reject Instr
  | [m] => (motorOfByte m).map op
  | _ => .error .payloadLength

/-- `op` of a motor index and two pin levels, the whole payload. -/
def decodePins (op : Motor → Bit → Bit → Instr) : List Byte → Except Reject Instr
  | [m, a, b] =>
    match motorOfByte m, bitOfByte a, bitOfByte b with
    | .ok m', .ok a', .ok b' => .ok (op m' a' b')
    | .error e, _, _ => .error e
    | _, .error e, _ => .error e
    | _, _, .error e => .error e
  | _ => .error .payloadLength

/-- `op` of an i16 delta and a motor id, the whole payload. -/
def decodeCommand (op : Word → Bit → Instr) : List Byte → Except Reject Instr
  | [hi, lo, id] => (bitOfByte id).map (op (wordOfBytes hi lo))
  | _ => .error .payloadLength

/-- `op` of one byte, the whole payload. -/
def decodeOne (op : Byte → Instr) : List Byte → Except Reject Instr
  | [b] => .ok (op b)
  | _ => .error .payloadLength

/-- An operation without operands: an empty payload. -/
def decodeNone (op : Instr) : List Byte → Except Reject Instr
  | [] => .ok op
  | _ => .error .payloadLength

/-- TLM.ENCF: six channel values (R102). -/
def decodeEncf : List Byte → Except Reject Instr
  | [x, y, roll, pitch, b1, b2] => .ok (.tlmEncf x y roll pitch b1 b2)
  | _ => .error .payloadLength

/-- RESET: the four pin levels (R240). -/
def decodeReset : List Byte → Except Reject Instr
  | [a0, b0, a1, b1] =>
    match bitOfByte a0, bitOfByte b0, bitOfByte a1, bitOfByte b1 with
    | .ok a0', .ok b0', .ok a1', .ok b1' => .ok (.reset a0' b0' a1' b1')
    | .error e, _, _, _ => .error e
    | _, .error e, _, _ => .error e
    | _, _, .error e, _ => .error e
    | _, _, _, .error e => .error e
  | _ => .error .payloadLength

/-- A combo key, four bits in one byte (R81). -/
def decodeKeyByte (m : Motor) : List Byte → Except Reject Instr
  | [k] => if k.toNat < 16 then .ok (decodeKey m (k.extractLsb' 0 4)) else .error .keyWidth
  | _ => .error .payloadLength

/-- The operation that a delivery carries: the port selects it (R70), the payload gives its operands. -/
def decode (d : Delivery) : Except Reject Instr :=
  match d.port with
  | .tlmEnc => decodeOne .tlmEnc d.payload
  | .tlmDec => decodeOne .tlmDec d.payload
  | .tlmEncf => decodeEncf d.payload
  | .tlmDecf => .ok (.tlmDecf d.payload)
  | .qdecSample => decodeMotor .qdecSample d.payload
  | .cmdPack => decodeCommand .cmdPack d.payload
  | .cmdRx => decodeOne .cmdRx d.payload
  | .servoStep => decodeMotor .servoStep d.payload
  | .evPin => decodePins .evPin d.payload
  | .evRxbyte => decodeOne .evRxbyte d.payload
  | .ustep => decodeNone .ustep d.payload
  | .reset => decodeReset d.payload
  | .pass => decodeNone .pass d.payload
  | .cmdSend => decodeCommand .cmdSend d.payload
  | .evPins => decodePins .evPins d.payload
  | .cmdByte => decodeOne decodeCmdByte d.payload
  | .tlmByte => decodeOne decodeTlmByte d.payload
  | .qdecKey m => decodeKeyByte m d.payload

/-- The delivery that carries an instruction. -/
def encode : Instr → Delivery
  | .tlmEnc v => ⟨.tlmEnc, [v]⟩
  | .tlmDec b => ⟨.tlmDec, [b]⟩
  | .tlmEncf x y roll pitch b1 b2 => ⟨.tlmEncf, [x, y, roll, pitch, b1, b2]⟩
  | .tlmDecf datagram => ⟨.tlmDecf, datagram⟩
  | .qdecSample m => ⟨.qdecSample, [motorByte m]⟩
  | .cmdPack d id => ⟨.cmdPack, wordBytes d ++ [bitByte id]⟩
  | .cmdRx b => ⟨.cmdRx, [b]⟩
  | .servoStep m => ⟨.servoStep, [motorByte m]⟩
  | .evPin m a b => ⟨.evPin, [motorByte m, bitByte a, bitByte b]⟩
  | .evRxbyte b => ⟨.evRxbyte, [b]⟩
  | .ustep => ⟨.ustep, []⟩
  | .reset a0 b0 a1 b1 => ⟨.reset, [bitByte a0, bitByte b0, bitByte a1, bitByte b1]⟩
  | .pass => ⟨.pass, []⟩
  | .cmdSend d id => ⟨.cmdSend, wordBytes d ++ [bitByte id]⟩
  | .evPins m a b => ⟨.evPins, [motorByte m, bitByte a, bitByte b]⟩
  | .cmdMsw id hi6 => ⟨.cmdByte, [mswByte id hi6]⟩
  | .cmdLsw lo7 => ⟨.cmdByte, [lswByte lo7]⟩
  | .tlmZero => ⟨.tlmByte, [0x00#8]⟩
  | .tlmLow m => ⟨.tlmByte, [0x0#4 ++ m]⟩
  | .tlmHigh h x => ⟨.tlmByte, [h ++ x]⟩
  | .qcombo0000 m => ⟨.qdecKey m, [0x0#8]⟩
  | .qcombo0001 m => ⟨.qdecKey m, [0x1#8]⟩
  | .qcombo0010 m => ⟨.qdecKey m, [0x2#8]⟩
  | .qcombo0011 m => ⟨.qdecKey m, [0x3#8]⟩
  | .qcombo0100 m => ⟨.qdecKey m, [0x4#8]⟩
  | .qcombo0101 m => ⟨.qdecKey m, [0x5#8]⟩
  | .qcombo0110 m => ⟨.qdecKey m, [0x6#8]⟩
  | .qcombo0111 m => ⟨.qdecKey m, [0x7#8]⟩
  | .qcombo1000 m => ⟨.qdecKey m, [0x8#8]⟩
  | .qcombo1001 m => ⟨.qdecKey m, [0x9#8]⟩
  | .qcombo1010 m => ⟨.qdecKey m, [0xA#8]⟩
  | .qcombo1011 m => ⟨.qdecKey m, [0xB#8]⟩
  | .qcombo1100 m => ⟨.qdecKey m, [0xC#8]⟩
  | .qcombo1101 m => ⟨.qdecKey m, [0xD#8]⟩
  | .qcombo1110 m => ⟨.qdecKey m, [0xE#8]⟩
  | .qcombo1111 m => ⟨.qdecKey m, [0xF#8]⟩

/-- The `n` low bytes of a table word, the first byte in the low bits. -/
def tableBytes : Nat → Nat → List Byte
  | 0, _ => []
  | n + 1, w => BitVec.ofNat 8 w :: tableBytes n (w / 256)

/-- The port that a table word is read at when it comes without one (log 3).  A combo key, a command byte and a
telemetry byte are told apart by their port alone (R70), so a bare word is read at the narrowest port that holds
it: one of at most four significant bits is a combo key of motor 0, any other a command byte. -/
def barePort (nbits w : Nat) : Port :=
  if 0 < nbits ∧ nbits ≤ 8 ∧ w < 16 then .qdecKey .m0 else .cmdByte

/-- The delivery of a bare table word (log 3). -/
def bareDelivery (nbits w : Nat) : Delivery :=
  ⟨barePort nbits w, tableBytes ((nbits + 7) / 8) w⟩

/-- The instruction the decoder reads from a bare table word (log 3). -/
def decodeTableWord (nbits w : Nat) : Option Instr :=
  match decode (bareDelivery nbits w) with
  | .ok i => some i
  | .error _ => none

end Sys2Proof
end

