-- ==== Sys2Proof/Machine/State.lean ====
section
/-! DEFINITION. The state of one motor-node instance, what an operation puts out, and the reasons for a refusal. -/

namespace Sys2Proof.Machine

/-- The duty output: `0`, or the OPEN value `PWM_DUTY_ON ≠ 0` (R27, R174; log 8). -/
inductive Duty where
  | zero
  | pwmDutyOn
deriving DecidableEq, Repr

/-- The two states of the command receiver (R31). -/
inductive RxState where
  | awaitingMsw
  | awaitingLsw
deriving DecidableEq, Repr

/-- The six channels of a decoded frame, each an i8 (R53, R103). -/
structure Frame where
  x : Byte
  y : Byte
  roll : Byte
  pitch : Byte
  button1 : Byte
  button2 : Byte
deriving DecidableEq, Repr

/-- A reported status (R211). -/
inductive Status where
  /-- COMMAND_OVERFLOW, with the original delta (R212). -/
  | commandOverflow (d : Word)
  /-- ENCODER_RESYNC of motor m's decoder (R125). -/
  | encoderResync (m : Motor)
deriving DecidableEq, Repr

/-- What an operation puts on an output port (R37). -/
inductive Output where
  /-- TLM.ENC's result, a channel byte. -/
  | tlmByte (b : Byte)
  /-- TLM.DEC's result, an i8. -/
  | tlmValue (v : Byte)
  /-- TLM.ENCF's result, the six bytes of one datagram. -/
  | tlmDatagram (bytes : List Byte)
  /-- TLM.DECF's result. -/
  | tlmFrame (f : Frame)
  /-- CMD.PACK's result. -/
  | packed (msw lsw : Byte) (ovf : Bool)
  /-- The receiver's event `Emit(motor, value)` (R10, R146). -/
  | emit (motor : Bit) (value : Word)
  /-- A status report (R211). -/
  | status (s : Status)
deriving DecidableEq, Repr

/-- The channel record of one motor (R20, R22 to R30, R36). -/
structure Channel where
  /-- ENC_A[m], the environment's level of pin a (R36). -/
  encA : Bit
  /-- ENC_B[m] (R36). -/
  encB : Bit
  /-- QPHASE[m] (R22). -/
  qphase : BitVec 2
  /-- QPOS[m], an i16 (R23). -/
  qpos : Word
  /-- TARGET[m], an i16 (R25). -/
  target : Word
  /-- DIR[m] (R26). -/
  dir : Dir
  /-- DUTY[m] (R27). -/
  duty : Duty
  /-- AT_TARGET[m] (R28). -/
  atTarget : Bool
  /-- ENC_FLAG[m] (R29). -/
  encFlag : Bool
  /-- ENC_RESYNC[m]; with ENCODER_FAULT_REPORT = OFF it does not exist and is held 0 (R30; log 14). -/
  encResync : Bool
deriving DecidableEq, Repr

/-- All state of one motor-node instance (R20), its configuration (R39), and three fields of the model's own. -/
structure State where
  /-- The configuration, which no step writes (R39; log 6). -/
  cfg : Config
  /-- Motor 0's channel (R20). -/
  ch0 : Channel
  /-- Motor 1's channel (R20). -/
  ch1 : Channel
  /-- RX_STATE (R31). -/
  rxState : RxState
  /-- RX_MOTOR (R32). -/
  rxMotor : Bit
  /-- RX_HIGH6 (R32). -/
  rxHigh6 : BitVec 6
  /-- RX_BYTE (R33). -/
  rxByte : Byte
  /-- CMD_FLAG (R34). -/
  cmdFlag : Bool
  /-- SEQ_PC, 0 .. 4·N_MOTORS + 2 (R35, R192). -/
  seqPc : Fin 11
  /-- HIT (R35). -/
  hit : Bool
  /-- The model's own: what the last step put out, in order (R37; log 9). -/
  out : List Output
  /-- The model's own: the deliveries still to come, the next one first (R60, R197; log 1). -/
  agenda : List Delivery
  /-- The model's own: how many free values have been drawn (log 4, log 11). -/
  draws : Nat
deriving DecidableEq, Repr

/-- No constructor: "The block has no exceptions, traps or faults" (R210, R12).  Nothing raises a fault. -/
inductive Fault where
deriving DecidableEq, Repr

/-- Why a step is refused. -/
inductive Refusal where
  /-- An operation without a meaning, rejected by its mnemonic in exec's arm.  Safe. -/
  | notModelled (mnemonic : String)
  /-- `refuse(TLM_RANGE)`: TLM.ENC or TLM.ENCF on a channel value outside [-8, 8] (R100, R102).  Safe: the spec refuses. -/
  | tlmRange
  /-- TLM.DECF on a datagram whose length is not six (R56, R103).  Safe: the spec refuses. -/
  | datagramLength
  /-- Raised by step alone: the next delivery is no operation (log 2).  Safe: the machine does not go on. -/
  | undeliverable (why : Reject)
deriving DecidableEq, Repr

/-- Motor m's channel in State.reset: pins (0, 0), so QPHASE = 0 under G0, and the values of R240 (log 4, log 5). -/
def Channel.reset (m : Motor) : Channel where
  encA := 0#1
  encB := 0#1
  qphase := 0#2
  qpos := 0#16
  target := 0#16
  dir := Config.drawDir 0 m
  duty := .zero
  atTarget := false
  encFlag := false
  encResync := false

/-- The instance right after its construction with every pin low and every parameter at its default (R7, R240;
log 4, log 5, log 6). -/
def State.reset : State where
  cfg := Config.standard
  ch0 := Channel.reset .m0
  ch1 := Channel.reset .m1
  rxState := .awaitingMsw
  rxMotor := Config.drawRxMotor 0
  rxHigh6 := Config.drawRxHigh6 0
  rxByte := Config.drawRxByte 0
  cmdFlag := false
  seqPc := 0
  hit := false
  out := []
  agenda := []
  draws := 1

end Sys2Proof.Machine
end

