-- ==== Sys2Proof/Machine/Operands.lean ====
section
/-! DEFINITION. Every operand and word form: pin words and phase maps, combo keys and their steps, command fields,
telemetry bytes and frames (30_encoding.md). -/

namespace Sys2Proof.Machine

/-- The pin word `a ++ b`: a is bit 1, b is bit 0 (R78). -/
def pinWord (a b : Bit) : BitVec 2 :=
  a ++ b

/-- `PHASE_MAP`, pin word to phase code: the rows of R121, read from the pin words to the codes. -/
def phaseCode (map : PhaseMap) (pins : BitVec 2) : BitVec 2 :=
  match map, pins.toNat with
  | .g0, 0 => 0#2
  | .g0, 1 => 1#2
  | .g0, 2 => 3#2
  | .g0, _ => 2#2
  | .g1, 0 => 0#2
  | .g1, 1 => 3#2
  | .g1, 2 => 1#2
  | .g1, _ => 2#2
  | .g2, 0 => 3#2
  | .g2, 1 => 0#2
  | .g2, 2 => 2#2
  | .g2, _ => 1#2
  | .g3, 0 => 1#2
  | .g3, 1 => 0#2
  | .g3, 2 => 2#2
  | .g3, _ => 3#2
  | .g4, 0 => 2#2
  | .g4, 1 => 3#2
  | .g4, 2 => 1#2
  | .g4, _ => 0#2
  | .g5, 0 => 2#2
  | .g5, 1 => 1#2
  | .g5, 2 => 3#2
  | .g5, _ => 0#2
  | .g6, 0 => 1#2
  | .g6, 1 => 2#2
  | .g6, 2 => 0#2
  | .g6, _ => 3#2
  | .g7, 0 => 3#2
  | .g7, 1 => 2#2
  | .g7, 2 => 0#2
  | .g7, _ => 1#2

/-- The combo key `QPHASE_old ++ c_new` (R81). -/
def comboKey (old new : BitVec 2) : BitVec 4 :=
  old ++ new

/-- Bits 3:2 of a combo key, the old code (R81). -/
def keyOld (key : BitVec 4) : BitVec 2 :=
  key.extractLsb' 2 2

/-- Bits 1:0 of a combo key, the new code (R81). -/
def keyNew (key : BitVec 4) : BitVec 2 :=
  key.extractLsb' 0 2

/-- `QSTEP[combo]`, the table of R82. -/
def qstep (key : BitVec 4) : Int :=
  match key.toNat with
  | 0b0000 => 0
  | 0b0001 => 1
  | 0b0010 => 0
  | 0b0011 => -1
  | 0b0100 => -1
  | 0b0101 => 0
  | 0b0110 => 1
  | 0b0111 => 0
  | 0b1000 => 0
  | 0b1001 => -1
  | 0b1010 => 0
  | 0b1011 => 1
  | 0b1100 => 1
  | 0b1101 => 0
  | 0b1110 => -1
  | _ => 0

/-- `wrap_16` (R9). -/
def wrap16 (x : Int) : Word :=
  BitVec.ofInt 16 x

/-- TLM.ENC's byte, and none outside `TLM_RANGE` (R100). -/
def encodeChannel (v : Byte) : Option Byte :=
  if v.toInt < -8 ∨ 8 < v.toInt then none
  else if v.toInt = 0 then some 0x00#8
  else if v.toInt < 0 then some (-v)
  else some (v <<< 4)

/-- TLM.DEC's value, an i8 (R101). -/
def decodeChannel (b : Byte) : Byte :=
  if b.toNat ≤ 8 then -b else -(b >>> 4)

/-- TLM.ENC on every lane of a frame, and none when a lane is refused (R102, R107). -/
def encodeLanes : List Byte → Option (List Byte)
  | [] => some []
  | v :: vs =>
    match encodeChannel v, encodeLanes vs with
    | some b, some bs => some (b :: bs)
    | _, _ => none

/-- A datagram of six channel bytes, decoded, with lanes 1 (y) and 2 (roll) negated; none at another length
(R103, R56; `TLM_NEGATED`). -/
def decodeFrame : List Byte → Option Frame
  | [b0, b1, b2, b3, b4, b5] =>
    some
      { x := decodeChannel b0
        y := -(decodeChannel b1)
        roll := -(decodeChannel b2)
        pitch := decodeChannel b3
        button1 := decodeChannel b4
        button2 := decodeChannel b5 }
  | _ => none

/-- The delta that is packed on overflow under a policy (R142). -/
def overflowDelta (policy : OvfPolicy) (d : Word) : Word :=
  match policy with
  | .clampAndFlag => if d.toInt < 0 then BitVec.ofInt 16 (-8191) else BitVec.ofInt 16 8191
  | .truncateAndFlag => d

/-- The 13-bit field F of a delta: its low 13 bits (R140). -/
def field13 (d : Word) : BitVec 13 :=
  d.extractLsb' 0 13

/-- F[12:7], the six high bits (R71, R140). -/
def fieldHigh6 (f : BitVec 13) : BitVec 6 :=
  f.extractLsb' 7 6

/-- F[6:0], the seven low bits (R72, R140). -/
def fieldLow7 (f : BitVec 13) : BitVec 7 :=
  f.extractLsb' 0 7

/-- `ASSEMBLE(hi6, lo7)`, the receiver's value (R144). -/
def assemble (mode : UnpackSignMode) (hi6 : BitVec 6) (lo7 : BitVec 7) : Word :=
  match mode with
  | .zeroExtend => (hi6 ++ lo7 : BitVec 13).zeroExtend 16
  | .signExtend13 => (hi6 ++ lo7 : BitVec 13).signExtend 16

/-- The servo error, exact or taken in i16 arithmetic (R170, R171). -/
def servoError (arith : ErrArith) (target qpos : Word) : Int :=
  match arith with
  | .exact => target.toInt - qpos.toInt
  | .wrap16 => (wrap16 (target.toInt - qpos.toInt)).toInt

end Sys2Proof.Machine
end

