-- ==== Sys2Proof/Machine/Flags.lean ====
section
/-! DEFINITION. Every flag and status computation: OVF, the double skip, the sticky ENC_RESYNC, the status codes. -/

namespace Sys2Proof.Machine

/-- `OVF`: exactly when `d ≤ −8192` or `d ≥ 8192` (R141, `CMD_OVF_LIMIT`). -/
def packOverflow (d : Word) : Bool :=
  decide (d.toInt ≤ -8192 ∨ 8192 ≤ d.toInt)

/-- A double skip: the new code is the old code + 2 mod 4 (R122, R125). -/
def isDoubleSkip (key : BitVec 4) : Bool :=
  keyNew key == keyOld key + 2#2

/-- Whether a decoder step reports ENCODER_RESYNC: only with STICKY_FLAG, on a double skip (R125, R213). -/
def resyncReported (report : EncoderFaultReport) (key : BitVec 4) : Bool :=
  match report with
  | .off => false
  | .stickyFlag => isDoubleSkip key

/-- The status code of a report: 1 COMMAND_OVERFLOW, 2 ENCODER_RESYNC (R211). -/
def Status.code : Status → Nat
  | .commandOverflow _ => 1
  | .encoderResync _ => 2

/-- The status code of a list of outputs: the code of its first report, and 0 NONE without one (R211). -/
def statusCode : List Output → Nat
  | [] => 0
  | .status st :: _ => st.code
  | _ :: rest => statusCode rest

end Sys2Proof.Machine
end

