-- ==== Sys2Proof/Machine/Ops.lean ====
section
/-! DEFINITION. The shared operations over the state: channels, outputs, triggers, the emission, the construction,
and the fetch of the next delivery.  The block takes no exception and returns from none (R210): a trigger's entry
(R219) is the nearest thing, and it is `raisePin` and `raiseByte`. -/

namespace Sys2Proof.Machine

/-- Motor m's channel record (R20). -/
def State.chan (s : State) : Motor → Channel
  | .m0 => s.ch0
  | .m1 => s.ch1

/-- Writes motor m's channel record. -/
def State.setChan (s : State) (m : Motor) (c : Channel) : State :=
  match m with
  | .m0 => { s with ch0 := c }
  | .m1 => { s with ch1 := c }

/-- The outputs of an earlier step are gone when an operation starts (log 9). -/
def State.begin (s : State) : State :=
  { s with out := [] }

/-- Puts one more output on a port (R37). -/
def State.push (s : State) (o : Output) : State :=
  { s with out := s.out ++ [o] }

/-- The duty that DUTY[m] shows, for any `DutyT`, its zero and its `PWM_DUTY_ON` (R27, R174; log 8). -/
def dutyOut {DutyT : Type} (zero pwmDutyOn : DutyT) (s : State) (m : Motor) : DutyT :=
  match (s.chan m).duty with
  | .zero => zero
  | .pwmDutyOn => pwmDutyOn

/-- The pin levels that DIR[m] drives, for any `DIR_PIN_LEVELS` (R26, R174; log 8). -/
def dirOut {Levels : Type} (dirPinLevels : Dir → Levels) (s : State) (m : Motor) : Levels :=
  dirPinLevels (s.chan m).dir

/-- A read of AT_TARGET[m] (R227). -/
def atTargetOut (s : State) (m : Motor) : Bool :=
  (s.chan m).atTarget

/-- A read of ENC_RESYNC[m], which exists only with STICKY_FLAG (R30, R227). -/
def encResyncOut (s : State) (m : Motor) : Option Bool :=
  match s.cfg.encoderFaultReport with
  | .off => none
  | .stickyFlag => some (s.chan m).encResync

/-- `TPR[m]` (R24). -/
def State.tpr (s : State) : Motor → Nat
  | .m0 => s.cfg.tpr0
  | .m1 => s.cfg.tpr1

/-- `PinRead(m)`: both levels in one atomic act (R10, R57). -/
def pinRead (s : State) (m : Motor) : Bit × Bit :=
  ((s.chan m).encA, (s.chan m).encB)

/-- The pin-change trigger: the pins move and ENC_FLAG[m] is set, in one step (R190, R219). -/
def raisePin (m : Motor) (a b : Bit) (s : State) : State :=
  s.setChan m { s.chan m with encA := a, encB := b, encFlag := true }

/-- The byte-received trigger: RX_BYTE is latched and CMD_FLAG set, in one step (R191, R219). -/
def raiseByte (b : Byte) (s : State) : State :=
  { s with rxByte := b, cmdFlag := true }

/-- `Emit(id, v)`: the event on the output, and `TARGET[id] <- v` (R146, R147). -/
def emitCommand (id : Bit) (v : Word) (s : State) : State :=
  (s.setChan (motorOfBit id) { s.chan (motorOfBit id) with target := v }).push (.emit id v)

/-- Motor m's channel at a construction with pins (a, b), DIR drawn (R240). -/
def constructChannel (map : PhaseMap) (drawnDir : Dir) (a b : Bit) : Channel where
  encA := a
  encB := b
  qphase := phaseCode map (pinWord a b)
  qpos := 0#16
  target := 0#16
  dir := drawnDir
  duty := .zero
  atTarget := false
  encFlag := false
  encResync := false

/-- The construction of the instance (R240) with the `n`-th draws of the unspecified values.  The configuration
stays, and so does the agenda (log 4, log 16). -/
def construct (a0 b0 a1 b1 : Bit) (n : Nat) (s : State) : State :=
  { s with
    ch0 := constructChannel s.cfg.phaseMap (Config.drawDir n .m0) a0 b0
    ch1 := constructChannel s.cfg.phaseMap (Config.drawDir n .m1) a1 b1
    rxState := .awaitingMsw
    rxMotor := Config.drawRxMotor n
    rxHigh6 := Config.drawRxHigh6 n
    rxByte := Config.drawRxByte n
    cmdFlag := false
    seqPc := 0
    hit := false
    draws := n + 1 }

/-- The next move and the state it starts from: the first delivery of the agenda, decoded, or with an empty agenda
the sequencer's micro-step, which is always enabled (R60, R197, R198; log 1). -/
def fetch (s : State) : Except Reject Instr × State :=
  match s.agenda with
  | [] => (.ok .ustep, s)
  | d :: rest => (decode d, { s with agenda := rest })

end Sys2Proof.Machine
end

