-- ==== Sys2Proof/Machine/Command.lean ====
section
/-! DEFINITION. The motor command codec (43_motor_command_codec.md): the packer, which holds no state, and the
two-state receiver. -/

namespace Sys2Proof.Machine

/-- The field F that CMD.PACK packs: of the delta, or on overflow of the policy's delta (R140, R142). -/
def packField (policy : OvfPolicy) (d : Word) : BitVec 13 :=
  field13 (if packOverflow d then overflowDelta policy d else d)

/-- The MSW of a packed command (R71, R140). -/
def packMsw (policy : OvfPolicy) (d : Word) (id : Bit) : Byte :=
  mswByte id (fieldHigh6 (packField policy d))

/-- The LSW of a packed command (R72, R140). -/
def packLsw (policy : OvfPolicy) (d : Word) : Byte :=
  lswByte (fieldLow7 (packField policy d))

/-- CMD.PACK's effect: both bytes and OVF are put out, and an overflow is reported as COMMAND_OVERFLOW without
stopping the packing (R140, R212). -/
def packRun (d : Word) (id : Bit) (s : State) : State :=
  let t := s.push (.packed (packMsw s.cfg.ovfPolicy d id) (packLsw s.cfg.ovfPolicy d) (packOverflow d))
  if packOverflow d then t.push (.status (.commandOverflow d)) else t

/-- CMD.PACK d, id (R140). -/
def execCmdPack (d : Word) (id : Bit) (s : State) : Host.Outcome State Fault Refusal :=
  .next (packRun d id s.begin)

/-- An MSW, in either state: id and high bits are captured, a half-received pair is dropped (R145). -/
def receiveMsw (id : Bit) (hi6 : BitVec 6) (s : State) : State :=
  { s with rxMotor := id, rxHigh6 := hi6, rxState := .awaitingLsw }

/-- An LSW: in AwaitingLSW it completes the pair and emits, in AwaitingMSW it is discarded (R145, R146). -/
def receiveLsw (lo7 : BitVec 7) (s : State) : State :=
  match s.rxState with
  | .awaitingLsw =>
    emitCommand s.rxMotor (assemble s.cfg.unpackSignMode s.rxHigh6 lo7) { s with rxState := .awaitingMsw }
  | .awaitingMsw => s

/-- CMD.RX's effect on a byte, classified by bit 7 alone (R73, R145). -/
def receiveRun (b : Byte) (s : State) : State :=
  if isMsw b then receiveMsw (mswId b) (mswHigh6 b) s else receiveLsw (lswLow7 b) s

/-- CMD.RX b (R145). -/
def execCmdRx (b : Byte) (s : State) : Host.Outcome State Fault Refusal :=
  .next (receiveRun b s.begin)

/-- The byte class CMD_MSW at the receiver (R71, R145; log 13). -/
def execCmdMsw (id : Bit) (hi6 : BitVec 6) (s : State) : Host.Outcome State Fault Refusal :=
  .next (receiveMsw id hi6 s.begin)

/-- The byte class CMD_LSW at the receiver (R72, R145; log 13). -/
def execCmdLsw (lo7 : BitVec 7) (s : State) : Host.Outcome State Fault Refusal :=
  .next (receiveLsw lo7 s.begin)

end Sys2Proof.Machine
end

