-- ==== Sys2Proof/Machine/Quadrature.lean ====
section
/-! DEFINITION. The quadrature decoder (42_quadrature_decoder.md): the step that a combo key selects, and the sample
that forms the key. -/

namespace Sys2Proof.Machine

/-- One decoder step by a combo key: QPOS moves by QSTEP, modulo 2^16, a reported double skip sets ENC_RESYNC, and
the new code is always adopted (R122, R123, R125). -/
def decoderStep (report : EncoderFaultReport) (key : BitVec 4) (c : Channel) : Channel :=
  { c with
    qpos := wrap16 (c.qpos.toInt + qstep key)
    encResync := c.encResync || resyncReported report key
    qphase := keyNew key }

/-- Motor m's decoder steps by a key, and reports ENCODER_RESYNC where R125 says so. -/
def decoderRun (m : Motor) (key : BitVec 4) (s : State) : State :=
  let t := s.setChan m (decoderStep s.cfg.encoderFaultReport key (s.chan m))
  if resyncReported s.cfg.encoderFaultReport key then t.push (.status (.encoderResync m)) else t

/-- The key of a sample of motor m: the old phase code, and the code of the live pins (R81, R122). -/
def sampleKey (m : Motor) (s : State) : BitVec 4 :=
  comboKey (s.chan m).qphase (phaseCode s.cfg.phaseMap (pinWord (pinRead s m).1 (pinRead s m).2))

/-- QDEC.SAMPLE's effect (R122). -/
def sampleRun (m : Motor) (s : State) : State :=
  decoderRun m (sampleKey m s) s

/-- QDEC.SAMPLE m (R122). -/
def execQdecSample (m : Motor) (s : State) : Host.Outcome State Fault Refusal :=
  .next (sampleRun m s.begin)

/-- QCOMBO_0000, codes 0 → 0, no change (R82, R122; log 12). -/
def execQcombo0000 (m : Motor) (s : State) : Host.Outcome State Fault Refusal :=
  .next (decoderRun m 0b0000#4 s.begin)

/-- QCOMBO_0001, codes 0 → 1, INC (R82, R122; log 12). -/
def execQcombo0001 (m : Motor) (s : State) : Host.Outcome State Fault Refusal :=
  .next (decoderRun m 0b0001#4 s.begin)

/-- QCOMBO_0010, codes 0 → 2, double skip (R82, R122; log 12). -/
def execQcombo0010 (m : Motor) (s : State) : Host.Outcome State Fault Refusal :=
  .next (decoderRun m 0b0010#4 s.begin)

/-- QCOMBO_0011, codes 0 → 3, DEC (R82, R122; log 12). -/
def execQcombo0011 (m : Motor) (s : State) : Host.Outcome State Fault Refusal :=
  .next (decoderRun m 0b0011#4 s.begin)

/-- QCOMBO_0100, codes 1 → 0, DEC (R82, R122; log 12). -/
def execQcombo0100 (m : Motor) (s : State) : Host.Outcome State Fault Refusal :=
  .next (decoderRun m 0b0100#4 s.begin)

/-- QCOMBO_0101, codes 1 → 1, no change (R82, R122; log 12). -/
def execQcombo0101 (m : Motor) (s : State) : Host.Outcome State Fault Refusal :=
  .next (decoderRun m 0b0101#4 s.begin)

/-- QCOMBO_0110, codes 1 → 2, INC (R82, R122; log 12). -/
def execQcombo0110 (m : Motor) (s : State) : Host.Outcome State Fault Refusal :=
  .next (decoderRun m 0b0110#4 s.begin)

/-- QCOMBO_0111, codes 1 → 3, double skip (R82, R122; log 12). -/
def execQcombo0111 (m : Motor) (s : State) : Host.Outcome State Fault Refusal :=
  .next (decoderRun m 0b0111#4 s.begin)

/-- QCOMBO_1000, codes 2 → 0, double skip (R82, R122; log 12). -/
def execQcombo1000 (m : Motor) (s : State) : Host.Outcome State Fault Refusal :=
  .next (decoderRun m 0b1000#4 s.begin)

/-- QCOMBO_1001, codes 2 → 1, DEC (R82, R122; log 12). -/
def execQcombo1001 (m : Motor) (s : State) : Host.Outcome State Fault Refusal :=
  .next (decoderRun m 0b1001#4 s.begin)

/-- QCOMBO_1010, codes 2 → 2, no change (R82, R122; log 12). -/
def execQcombo1010 (m : Motor) (s : State) : Host.Outcome State Fault Refusal :=
  .next (decoderRun m 0b1010#4 s.begin)

/-- QCOMBO_1011, codes 2 → 3, INC (R82, R122; log 12). -/
def execQcombo1011 (m : Motor) (s : State) : Host.Outcome State Fault Refusal :=
  .next (decoderRun m 0b1011#4 s.begin)

/-- QCOMBO_1100, codes 3 → 0, INC (R82, R122; log 12). -/
def execQcombo1100 (m : Motor) (s : State) : Host.Outcome State Fault Refusal :=
  .next (decoderRun m 0b1100#4 s.begin)

/-- QCOMBO_1101, codes 3 → 1, double skip (R82, R122; log 12). -/
def execQcombo1101 (m : Motor) (s : State) : Host.Outcome State Fault Refusal :=
  .next (decoderRun m 0b1101#4 s.begin)

/-- QCOMBO_1110, codes 3 → 2, DEC (R82, R122; log 12). -/
def execQcombo1110 (m : Motor) (s : State) : Host.Outcome State Fault Refusal :=
  .next (decoderRun m 0b1110#4 s.begin)

/-- QCOMBO_1111, codes 3 → 3, no change (R82, R122; log 12). -/
def execQcombo1111 (m : Motor) (s : State) : Host.Outcome State Fault Refusal :=
  .next (decoderRun m 0b1111#4 s.begin)

end Sys2Proof.Machine
end

