-- ==== Sys2Proof/Machine/Servo.lean ====
section
/-! DEFINITION. The bang-bang position servo (44_servo.md). -/

namespace Sys2Proof.Machine

/-- The three output registers driven by the sign of the error; DIR keeps its value at error 0 (R170, D10). -/
def servoDrive (err : Int) (c : Channel) : Channel :=
  if 0 < err then { c with dir := .fwd, duty := .pwmDutyOn, atTarget := false }
  else if err < 0 then { c with dir := .rev, duty := .pwmDutyOn, atTarget := false }
  else { c with duty := .zero, atTarget := true }

/-- SERVO.STEP's effect: the comparator of TARGET[m] against QPOS[m] (R170). -/
def servoRun (m : Motor) (s : State) : State :=
  s.setChan m (servoDrive (servoError s.cfg.errArith (s.chan m).target (s.chan m).qpos) (s.chan m))

/-- SERVO.STEP m (R170). -/
def execServoStep (m : Motor) (s : State) : Host.Outcome State Fault Refusal :=
  .next (servoRun m s.begin)

end Sys2Proof.Machine
end

