-- ==== Sys2Proof/Machine/Sequencer.lean ====
section
/-! DEFINITION. The motor-node service sequencer and the triggers (45_sequencer.md), the construction
(70_reset_and_hazards.md R240), and the pseudo-operations (30_encoding.md R86). -/

namespace Sys2Proof.Machine

/-- A micro-step of the pass (R192). -/
inductive MicroStep where
  /-- ET(m): test ENC_FLAG[m]. -/
  | testEnc (m : Motor)
  /-- EC(m): clear ENC_FLAG[m] if hit. -/
  | clearEnc (m : Motor)
  /-- EU(m): sample motor m if hit. -/
  | updateEnc (m : Motor)
  /-- CT: test CMD_FLAG. -/
  | testCmd
  /-- CC: clear CMD_FLAG if hit. -/
  | clearCmd
  /-- CU: step the receiver on RX_BYTE if hit. -/
  | updateCmd
  /-- SV(m): SERVO.STEP m. -/
  | servo (m : Motor)
deriving DecidableEq, Repr

/-- `L[SEQ_PC]`: ET, EC, EU for each motor, then CT, CC, CU, then SV for each motor (R192). -/
def microStepAt (pc : Fin 11) : MicroStep :=
  match pc.val with
  | 0 => .testEnc .m0
  | 1 => .clearEnc .m0
  | 2 => .updateEnc .m0
  | 3 => .testEnc .m1
  | 4 => .clearEnc .m1
  | 5 => .updateEnc .m1
  | 6 => .testCmd
  | 7 => .clearCmd
  | 8 => .updateCmd
  | 9 => .servo .m0
  | _ => .servo .m1

/-- What a micro-step does, SEQ_PC apart (R193 to R196). -/
def microStepRun (u : MicroStep) (s : State) : State :=
  match u with
  | .testEnc m => { s with hit := (s.chan m).encFlag }
  | .clearEnc m => if s.hit then s.setChan m { s.chan m with encFlag := false } else s
  | .updateEnc m => if s.hit then sampleRun m s else s
  | .testCmd => { s with hit := s.cmdFlag }
  | .clearCmd => if s.hit then { s with cmdFlag := false } else s
  | .updateCmd => if s.hit then receiveRun s.rxByte s else s
  | .servo m => servoRun m s

/-- USTEP's effect: `L[SEQ_PC]`, then SEQ_PC moves on, modulo the length of L (R192). -/
def ustepRun (s : State) : State :=
  { microStepRun (microStepAt s.seqPc) s with seqPc := s.seqPc + 1 }

/-- `n` micro-steps with nothing between them. -/
def ustepsRun : Nat → State → State
  | 0, s => s
  | n + 1, s => ustepsRun n (ustepRun s)

/-- One move inside the gap of a CMD.SEND (log 11). -/
def gapMoveRun (g : GapMove) (s : State) : State :=
  match g with
  | .ustep => ustepRun s
  | .pin m a b => raisePin m a b s

/-- The moves inside the gap of a CMD.SEND, in order (log 11). -/
def gapRun : List GapMove → State → State
  | [], s => s
  | g :: gs, s => gapRun gs (gapMoveRun g s)

/-- CMD.SEND with the moves `gap` between its two bytes: CMD.PACK, EV.RXBYTE MSW, the gap, EV.RXBYTE LSW
(R86, R246; log 11). -/
def sendRun (gap : List GapMove) (d : Word) (id : Bit) (s : State) : State :=
  raiseByte (packLsw s.cfg.ovfPolicy d)
    (gapRun gap (raiseByte (packMsw s.cfg.ovfPolicy d id) (packRun d id s)))

/-- EV.PIN m, a, b (R190). -/
def execEvPin (m : Motor) (a b : Bit) (s : State) : Host.Outcome State Fault Refusal :=
  .next (raisePin m a b s.begin)

/-- EV.RXBYTE b (R191). -/
def execEvRxbyte (b : Byte) (s : State) : Host.Outcome State Fault Refusal :=
  .next (raiseByte b s.begin)

/-- USTEP (R192). -/
def execUstep (s : State) : Host.Outcome State Fault Refusal :=
  .next (ustepRun s.begin)

/-- RESET a0, b0, a1, b1 (R240). -/
def execReset (a0 b0 a1 b1 : Bit) (s : State) : Host.Outcome State Fault Refusal :=
  .next (construct a0 b0 a1 b1 s.draws s.begin)

/-- PASS: USTEP repeated until SEQ_PC returns to 0, with no trigger between; eleven from SEQ_PC = 0
(R86, R201; log 10). -/
def execPass (s : State) : Host.Outcome State Fault Refusal :=
  .next (ustepsRun (11 - s.seqPc.val) s.begin)

/-- CMD.SEND d, id, with the next free gap (R86; log 11). -/
def execCmdSend (d : Word) (id : Bit) (s : State) : Host.Outcome State Fault Refusal :=
  .next (sendRun (Config.sendGap s.draws) d id { s.begin with draws := s.draws + 1 })

/-- EV.PINS m, a, b: EV.PIN only where the pins differ (R86). -/
def execEvPins (m : Motor) (a b : Bit) (s : State) : Host.Outcome State Fault Refusal :=
  if pinRead s m = (a, b) then .next s.begin else .next (raisePin m a b s.begin)

end Sys2Proof.Machine
end

