-- ==== Sys2Proof/Machine/Telemetry.lean ====
section
/-! DEFINITION. The telemetry codec (41_telemetry_codec.md).  It holds no state (R20): an operation puts its result
out and touches nothing else (R227). -/

namespace Sys2Proof.Machine

/-- TLM.DEC's step on a byte (R101). -/
def tlmDecRun (b : Byte) (s : State) : State :=
  s.begin.push (.tlmValue (decodeChannel b))

/-- TLM.ENC v (R100). -/
def execTlmEnc (v : Byte) (s : State) : Host.Outcome State Fault Refusal :=
  match encodeChannel v with
  | some b => .next (s.begin.push (.tlmByte b))
  | none => .refused .tlmRange

/-- TLM.DEC b (R101). -/
def execTlmDec (b : Byte) (s : State) : Host.Outcome State Fault Refusal :=
  .next (tlmDecRun b s)

/-- TLM.ENCF x, y, roll, pitch, b1, b2 (R102). -/
def execTlmEncf (x y roll pitch b1 b2 : Byte) (s : State) : Host.Outcome State Fault Refusal :=
  match encodeLanes [x, y, roll, pitch, b1, b2] with
  | some bytes => .next (s.begin.push (.tlmDatagram bytes))
  | none => .refused .tlmRange

/-- TLM.DECF B0, ..., B5 (R103). -/
def execTlmDecf (datagram : List Byte) (s : State) : Host.Outcome State Fault Refusal :=
  match decodeFrame datagram with
  | some f => .next (s.begin.push (.tlmFrame f))
  | none => .refused .datagramLength

/-- The byte class TLM_ZERO at the telemetry decoder (R76, R101; log 13). -/
def execTlmZero (s : State) : Host.Outcome State Fault Refusal :=
  .next (tlmDecRun 0x00#8 s)

/-- The byte class TLM_LOW at the telemetry decoder (R76, R101; log 13). -/
def execTlmLow (m : BitVec 4) (s : State) : Host.Outcome State Fault Refusal :=
  .next (tlmDecRun (0x0#4 ++ m) s)

/-- The byte class TLM_HIGH at the telemetry decoder (R76, R101; log 13). -/
def execTlmHigh (h x : BitVec 4) (s : State) : Host.Outcome State Fault Refusal :=
  .next (tlmDecRun (h ++ x) s)

end Sys2Proof.Machine
end

