-- ==== Sys2Proof/Machine/Dispatch.lean ====
section
/-! DEFINITION. The dispatch: one arm for each constructor of Instr. -/

namespace Sys2Proof.Machine

def exec (i : Instr) (s : State) : Host.Outcome State Fault Refusal :=
  match i with
  | .tlmEnc v => Sys2Proof.Machine.execTlmEnc v s
  | .tlmDec b => Sys2Proof.Machine.execTlmDec b s
  | .tlmEncf x y roll pitch b1 b2 => Sys2Proof.Machine.execTlmEncf x y roll pitch b1 b2 s
  | .tlmDecf datagram => Sys2Proof.Machine.execTlmDecf datagram s
  | .qdecSample m => Sys2Proof.Machine.execQdecSample m s
  | .cmdPack d id => Sys2Proof.Machine.execCmdPack d id s
  | .cmdRx b => Sys2Proof.Machine.execCmdRx b s
  | .servoStep m => Sys2Proof.Machine.execServoStep m s
  | .evPin m a b => Sys2Proof.Machine.execEvPin m a b s
  | .evRxbyte b => Sys2Proof.Machine.execEvRxbyte b s
  | .ustep => Sys2Proof.Machine.execUstep s
  | .reset a0 b0 a1 b1 => Sys2Proof.Machine.execReset a0 b0 a1 b1 s
  | .pass => Sys2Proof.Machine.execPass s
  | .cmdSend d id => Sys2Proof.Machine.execCmdSend d id s
  | .evPins m a b => Sys2Proof.Machine.execEvPins m a b s
  | .cmdMsw id hi6 => Sys2Proof.Machine.execCmdMsw id hi6 s
  | .cmdLsw lo7 => Sys2Proof.Machine.execCmdLsw lo7 s
  | .tlmZero => Sys2Proof.Machine.execTlmZero s
  | .tlmLow m => Sys2Proof.Machine.execTlmLow m s
  | .tlmHigh h x => Sys2Proof.Machine.execTlmHigh h x s
  | .qcombo0000 m => Sys2Proof.Machine.execQcombo0000 m s
  | .qcombo0001 m => Sys2Proof.Machine.execQcombo0001 m s
  | .qcombo0010 m => Sys2Proof.Machine.execQcombo0010 m s
  | .qcombo0011 m => Sys2Proof.Machine.execQcombo0011 m s
  | .qcombo0100 m => Sys2Proof.Machine.execQcombo0100 m s
  | .qcombo0101 m => Sys2Proof.Machine.execQcombo0101 m s
  | .qcombo0110 m => Sys2Proof.Machine.execQcombo0110 m s
  | .qcombo0111 m => Sys2Proof.Machine.execQcombo0111 m s
  | .qcombo1000 m => Sys2Proof.Machine.execQcombo1000 m s
  | .qcombo1001 m => Sys2Proof.Machine.execQcombo1001 m s
  | .qcombo1010 m => Sys2Proof.Machine.execQcombo1010 m s
  | .qcombo1011 m => Sys2Proof.Machine.execQcombo1011 m s
  | .qcombo1100 m => Sys2Proof.Machine.execQcombo1100 m s
  | .qcombo1101 m => Sys2Proof.Machine.execQcombo1101 m s
  | .qcombo1110 m => Sys2Proof.Machine.execQcombo1110 m s
  | .qcombo1111 m => Sys2Proof.Machine.execQcombo1111 m s

end Sys2Proof.Machine
end

