-- ==== Sys2Proof/Machine/Step.lean ====
section
/-! DEFINITION. One step of the machine: the next move, decoded at its port and run (00_scope.md R11). -/

namespace Sys2Proof.Machine

/-- One atomic step (R11, R60): the first delivery of the agenda, or a micro-step of the sequencer when there is
none (log 1). -/
def step (s : State) : Host.Outcome State Fault Refusal :=
  match fetch s with
  | (.ok i, t) => exec i t
  | (.error why, _) => .refused (.undeliverable why)

/-- `s` with a bare table word at the head of the agenda, so that the very next step runs it (log 1, log 3). -/
def State.withFetchWord (s : State) (nbits w : Nat) : State :=
  { s with agenda := bareDelivery nbits w :: s.agenda }

end Sys2Proof.Machine
end

