-- ==== Sys2Proof/Machine/Environment.lean ====
section
/-! DEFINITION. What a running motor node can meet: exactly the environment's moves of 60_exceptions.md R227, and the
sequencer's own micro-steps (45_sequencer.md R197).  Log 20 says how the agenda that step runs stands to them. -/

namespace Sys2Proof.Machine

/-- The outputs of a motor node that the environment can read (R227). -/
inductive OutputPort where
  /-- DIR[m]. -/
  | dir (m : Motor)
  /-- DUTY[m]. -/
  | duty (m : Motor)
  /-- AT_TARGET[m]. -/
  | atTarget (m : Motor)
  /-- ENC_RESYNC[m], which exists only with STICKY_FLAG. -/
  | encResync (m : Motor)
deriving DecidableEq, Repr

/-- The environment's moves toward a running motor node: exactly these (R227). -/
inductive EnvMove where
  /-- EV.PIN m, a, b (R190). -/
  | pin (m : Motor) (a b : Bit)
  /-- EV.RXBYTE b (R191). -/
  | rxByte (b : Byte)
  /-- Reads an output (R59). -/
  | read (p : OutputPort)
deriving DecidableEq, Repr

/-- What a move of the environment gets back (R227). -/
inductive Answer where
  | nothing
  | dir (d : Dir)
  | duty (d : Duty)
  | atTarget (b : Bool)
  | encResync (b : Bool)
deriving DecidableEq, Repr

/-- What a move does to the motor node: a trigger's entry (R219), and a read nothing (R59). -/
def EnvMove.run (e : EnvMove) (s : State) : State :=
  match e with
  | .pin m a b => raisePin m a b s.begin
  | .rxByte b => raiseByte b s.begin
  | .read _ => s

/-- The read of an output; with OFF there is no ENC_RESYNC, and nothing comes back (R30, R227; log 14). -/
def OutputPort.read (p : OutputPort) (s : State) : Answer :=
  match p with
  | .dir m => .dir (s.chan m).dir
  | .duty m => .duty (s.chan m).duty
  | .atTarget m => .atTarget (atTargetOut s m)
  | .encResync m =>
    match encResyncOut s m with
    | some b => .encResync b
    | none => .nothing

/-- What a move gets back: a trigger nothing, a read the output (R227). -/
def EnvMove.answer (e : EnvMove) (s : State) : Answer :=
  match e with
  | .pin _ _ _ => .nothing
  | .rxByte _ => .nothing
  | .read p => p.read s

/-- The operation that a move sends; a read sends nothing (R227). -/
def EnvMove.sends : EnvMove → Option Instr
  | .pin m a b => some (.evPin m a b)
  | .rxByte b => some (.evRxbyte b)
  | .read _ => none

/-- A move in a run of a motor node after its RESET: the environment's, or the sequencer's (R60, R197). -/
inductive NodeMove where
  | env (e : EnvMove)
  | ustep
deriving DecidableEq, Repr

/-- What a move of a run does.  It cannot stop (R198, R210). -/
def NodeMove.run (n : NodeMove) (s : State) : State :=
  match n with
  | .env e => e.run s
  | .ustep => ustepRun s.begin

/-- The operation that a move of a run is; a read is none. -/
def NodeMove.sends : NodeMove → Option Instr
  | .env e => e.sends
  | .ustep => some .ustep

/-- A run of a motor node after its RESET, in any order of the two agents' moves (R197). -/
def nodeRun : List NodeMove → State → State
  | [], s => s
  | n :: ns, s => nodeRun ns (n.run s)

/-- The move of a run that an operation is.  RESET inside a run, a unit called directly, a wire word, a
pseudo-operation and a stateless unit of another node are none (R197, R227). -/
def nodeMoveOf : Instr → Option NodeMove
  | .evPin m a b => some (.env (.pin m a b))
  | .evRxbyte b => some (.env (.rxByte b))
  | .ustep => some .ustep
  | .tlmEnc _ | .tlmDec _ | .tlmEncf _ _ _ _ _ _ | .tlmDecf _ => none
  | .qdecSample _ | .cmdPack _ _ | .cmdRx _ | .servoStep _ => none
  | .reset _ _ _ _ | .pass | .cmdSend _ _ | .evPins _ _ _ => none
  | .cmdMsw _ _ | .cmdLsw _ | .tlmZero | .tlmLow _ | .tlmHigh _ _ => none
  | .qcombo0000 _ | .qcombo0001 _ | .qcombo0010 _ | .qcombo0011 _ => none
  | .qcombo0100 _ | .qcombo0101 _ | .qcombo0110 _ | .qcombo0111 _ => none
  | .qcombo1000 _ | .qcombo1001 _ | .qcombo1010 _ | .qcombo1011 _ => none
  | .qcombo1100 _ | .qcombo1101 _ | .qcombo1110 _ | .qcombo1111 _ => none

/-- The move of a run that a delivery is; one that is no operation is none. -/
def nodeMoveOfDelivery (d : Delivery) : Option NodeMove :=
  match decode d with
  | .ok i => nodeMoveOf i
  | .error _ => none

/-- The agenda holds moves of a motor node's own run and nothing else: no RESET inside the run, no unit called
directly, nothing that could stop step (R197, R227). -/
def State.onlyNodeMoves (s : State) : Bool :=
  s.agenda.all fun d => (nodeMoveOfDelivery d).isSome

end Sys2Proof.Machine
end

