-- ==== Sys2Proof/Safety.lean ====
section
/-! DEFINITION. What claims speak of: runs of operations, and the invariant of the machine. -/

namespace Sys2Proof.Machine

/-- Runs operations one after the other, each one step, and stops at the first that is refused (R60, R202).  The
state's outputs are those of the last operation. -/
def runOps : List Instr → State → Host.Outcome State Fault Refusal
  | [], s => .next s
  | i :: is, s =>
    match exec i s with
    | .next t => runOps is t
    | .fault r => .fault r
    | .refused r => .refused r

/-- The operation that a move inside a CMD.SEND's gap is (log 11). -/
def gapInstr : GapMove → Instr
  | .ustep => .ustep
  | .pin m a b => .evPin m a b

/-- The values that the receiver can put in TARGET: 0 .. 8191 with ZERO_EXTEND, −4096 .. 4095 with SIGN_EXTEND_13
(R144, R171). -/
abbrev TargetReachable (mode : UnpackSignMode) (target : Word) : Prop :=
  match mode with
  | .zeroExtend => 0 ≤ target.toInt ∧ target.toInt ≤ 8191
  | .signExtend13 => -4096 ≤ target.toInt ∧ target.toInt ≤ 4095

/-- What every step keeps of one channel: TARGET is a value the receiver can produce (R25, R144), AT_TARGET comes
with duty 0 (R27, R28, R170), and ENC_RESYNC is 0 where the register does not exist (R30). -/
abbrev ChannelInv (cfg : Config) (c : Channel) : Prop :=
  TargetReachable cfg.unpackSignMode c.target ∧
  (c.atTarget = true → c.duty = .zero) ∧
  (cfg.encoderFaultReport = .off → c.encResync = false)

/-- The invariant of the machine: both channels'. -/
abbrev Invariant (s : State) : Prop :=
  ChannelInv s.cfg s.ch0 ∧ ChannelInv s.cfg s.ch1

end Sys2Proof.Machine
end

