-- ==== Sys2Proof/Certificates/Slice0/Obligations.lean ====
section
/-! DEFINITION. The statements about the CRA control block for the provers.  Every state is quantified over, so the
configuration, the free values and the model's own fields take every value.  "The spec's own choice Dn" is row n of
92_eei_decisions.md; "log n" is notes/assumptions/n.md.

The frame of a statement is in its next state: `{ s with … }` and `s.setChan m { … with … }` name every register that
changes, and every other one is the old one.  The block has no memory (20_memory.md R50), so no frame speaks of one. -/

namespace Sys2Proof.Spec

open Sys2Proof.Machine

/-- The outputs of all of a run's operations, in order; `runOps` keeps those of the last one only. -/
def allOutputs : List Instr → State → List Output
  | [], _ => []
  | i :: is, s =>
    match exec i s with
    | .next t => t.out ++ allOutputs is t
    | .fault _ => []
    | .refused _ => []

/-- QSTEP in closed form (30_encoding.md R82). -/
def closedStep (old new : BitVec 2) : Int :=
  if new = old + 1#2 then 1 else if new = old + 3#2 then -1 else 0

/-- Forward steps minus backward steps of a sequence of sampled phase codes, from a first one (R128). -/
def netSteps : BitVec 2 → List (BitVec 2) → Int
  | _, [] => 0
  | old, new :: rest => closedStep old new + netSteps new rest

/-- The last of a sequence of phase codes, from a first one. -/
def lastCode : BitVec 2 → List (BitVec 2) → BitVec 2
  | old, [] => old
  | _, new :: rest => lastCode new rest

/-- The rows of R82: the word, its old and new code, its step. -/
def comboRows : List ((Motor → Instr) × BitVec 2 × BitVec 2 × Int) :=
  [(.qcombo0000, 0#2, 0#2, 0), (.qcombo0001, 0#2, 1#2, 1), (.qcombo0010, 0#2, 2#2, 0), (.qcombo0011, 0#2, 3#2, -1),
   (.qcombo0100, 1#2, 0#2, -1), (.qcombo0101, 1#2, 1#2, 0), (.qcombo0110, 1#2, 2#2, 1), (.qcombo0111, 1#2, 3#2, 0)] ++
  [(.qcombo1000, 2#2, 0#2, 0), (.qcombo1001, 2#2, 1#2, -1), (.qcombo1010, 2#2, 2#2, 0), (.qcombo1011, 2#2, 3#2, 1),
   (.qcombo1100, 3#2, 0#2, 1), (.qcombo1101, 3#2, 1#2, 0), (.qcombo1110, 3#2, 2#2, -1), (.qcombo1111, 3#2, 3#2, 0)]

/-- The rows of R121: a map, and the pin words (a b) of its codes 0, 1, 2, 3. -/
def phaseRows : List (PhaseMap × BitVec 2 × BitVec 2 × BitVec 2 × BitVec 2) :=
  [(.g0, 0b00#2, 0b01#2, 0b11#2, 0b10#2), (.g1, 0b00#2, 0b10#2, 0b11#2, 0b01#2),
   (.g2, 0b01#2, 0b11#2, 0b10#2, 0b00#2), (.g3, 0b01#2, 0b00#2, 0b10#2, 0b11#2)] ++
  [(.g4, 0b11#2, 0b10#2, 0b00#2, 0b01#2), (.g5, 0b11#2, 0b01#2, 0b00#2, 0b10#2),
   (.g6, 0b10#2, 0b00#2, 0b01#2, 0b11#2), (.g7, 0b10#2, 0b11#2, 0b01#2, 0b00#2)]

/-- The double skips of R125: combos 2, 7, 8 and 13. -/
def doubleSkips : List (BitVec 4) :=
  [2#4, 7#4, 8#4, 13#4]

/-- The servo error of R170 under a setting of ERR_ARITH. -/
def servoErr (arith : ErrArith) (c : Channel) : Int :=
  match arith with
  | .exact => c.target.toInt - c.qpos.toInt
  | .wrap16 => (c.target - c.qpos).toInt

/-- The deltas that the receiver gives back unchanged under a setting of UNPACK_SIGN_MODE (R148). -/
def exactDelta (mode : UnpackSignMode) (d : Word) : Prop :=
  match mode with
  | .zeroExtend => 0 ≤ d.toInt ∧ d.toInt ≤ 8191
  | .signExtend13 => -4096 ≤ d.toInt ∧ d.toInt ≤ 4095

/-- The servo outputs that R170 gives for an error. -/
def drivenBy (err : Int) (c c' : Channel) : Prop :=
  (0 < err → c' = { c with dir := .fwd, duty := .pwmDutyOn, atTarget := false }) ∧
  (err < 0 → c' = { c with dir := .rev, duty := .pwmDutyOn, atTarget := false }) ∧
  (err = 0 → c' = { c with duty := .zero, atTarget := true })

/-- The violated input preconditions of the opcode table: a channel value outside [-8, 8] (R100, R102), a datagram
whose length is not six (R103). -/
def preconditionViolated : Instr → Prop
  | .tlmEnc v => v.toInt < -8 ∨ 8 < v.toInt
  | .tlmEncf x y roll pitch b1 b2 => ∃ v ∈ [x, y, roll, pitch, b1, b2], v.toInt < -8 ∨ 8 < v.toInt
  | .tlmDecf datagram => datagram.length ≠ 6
  | _ => False

/-- The position of motor m's ET micro-step in the pass (R192). -/
def encService (m : Motor) : Fin 11 :=
  match m with
  | .m0 => 0
  | .m1 => 3

/-- A RESET. -/
def isReset (i : Instr) : Prop :=
  ∃ a0 b0 a1 b1, i = .reset a0 b0 a1 b1

/-- A CMD.SEND, whose gap runs the sequencer (R86; log 11). -/
def isSend (i : Instr) : Prop :=
  ∃ d id, i = .cmdSend d id

end Sys2Proof.Spec

open Sys2Proof Sys2Proof.Machine

/-! ### Telemetry codec -/

/-- 30_encoding.md R76: every byte decodes, LOW to −b and HIGH to −(b >> 4); nothing else changes. -/
def Obligations.TlmDecodeByClass : Prop :=
  ∀ (b : Byte) (s : State), ∃ v : Byte,
    exec (.tlmDec b) s = .next { s with out := [.tlmValue v] } ∧
    (b.toNat ≤ 8 → v.toInt = -(b.toNat : Int)) ∧
    (8 < b.toNat → v.toInt = -((b.toNat / 16 : Nat) : Int))

/-- 30_encoding.md R75: the byte of every legal channel value, nothing else changed, and no byte but these 17 ever. -/
def Obligations.TlmEncodeTable : Prop :=
  ∀ (v : Byte) (s : State),
    (-8 ≤ v.toInt → v.toInt ≤ 8 → ∃ b : Byte,
      exec (.tlmEnc v) s = .next { s with out := [.tlmByte b] } ∧
      (v.toInt ≤ 0 → (b.toNat : Int) = -v.toInt) ∧
      (0 < v.toInt → (b.toNat : Int) = 16 * v.toInt)) ∧
    (∀ (t : State) (b : Byte), exec (.tlmEnc v) s = .next t → Output.tlmByte b ∈ t.out →
      b.toNat ≤ 8 ∨ ∃ k : Nat, 1 ≤ k ∧ k ≤ 8 ∧ b.toNat = 16 * k)

/-- 41_telemetry_codec.md R100: TLM.ENC refuses a value outside [-8, 8] (the spec's own choice D22). -/
def Obligations.TlmEncodeRefusesOutOfRange : Prop :=
  ∀ (v : Byte) (s : State), v.toInt < -8 ∨ 8 < v.toInt → exec (.tlmEnc v) s = .refused .tlmRange

/-- 41_telemetry_codec.md R102: lane by lane the byte that TLM.ENC gives, refused if any lane is refused. -/
def Obligations.TlmEncodeFrameByLanes : Prop :=
  ∀ (x y roll pitch b1 b2 : Byte) (s : State),
    ((∀ v ∈ [x, y, roll, pitch, b1, b2], -8 ≤ v.toInt ∧ v.toInt ≤ 8) →
      ∃ c0 c1 c2 c3 c4 c5 : Byte,
        exec (.tlmEncf x y roll pitch b1 b2) s = .next { s with out := [.tlmDatagram [c0, c1, c2, c3, c4, c5]] } ∧
        ∀ lane ∈ [(x, c0), (y, c1), (roll, c2), (pitch, c3), (b1, c4), (b2, c5)],
          exec (.tlmEnc lane.1) s = .next { s with out := [.tlmByte lane.2] }) ∧
    ((∃ v ∈ [x, y, roll, pitch, b1, b2], exec (.tlmEnc v) s = .refused .tlmRange) →
      exec (.tlmEncf x y roll pitch b1 b2) s = .refused .tlmRange)

/-- 41_telemetry_codec.md R103: six bytes decode lane by lane with y and roll negated; another length is refused
(the spec's own choice D23). -/
def Obligations.TlmDecodeFrame : Prop :=
  ∀ (datagram : List Byte) (s : State),
    (datagram.length = 6 →
      ∃ (bytes : Fin 6 → Byte) (v : Fin 6 → Byte) (f : Frame),
        datagram = List.ofFn bytes ∧
        (∀ k, exec (.tlmDec (bytes k)) s = .next { s with out := [.tlmValue (v k)] }) ∧
        exec (.tlmDecf datagram) s = .next { s with out := [.tlmFrame f] } ∧
        f.x.toInt = (v 0).toInt ∧ f.y.toInt = -(v 1).toInt ∧ f.roll.toInt = -(v 2).toInt ∧
        f.pitch.toInt = (v 3).toInt ∧ f.button1.toInt = (v 4).toInt ∧ f.button2.toInt = (v 5).toInt) ∧
    (datagram.length ≠ 6 → exec (.tlmDecf datagram) s = .refused .datagramLength)

/-- 41_telemetry_codec.md R104 (derived there): `TLM.DEC(TLM.ENC(v)) = −|v|`. -/
def Obligations.ChannelRoundTrip : Prop :=
  ∀ (v : Byte) (s : State), -8 ≤ v.toInt → v.toInt ≤ 8 → ∃ b w : Byte,
    exec (.tlmEnc v) s = .next { s with out := [.tlmByte b] } ∧
    exec (.tlmDec b) s = .next { s with out := [.tlmValue w] } ∧
    w.toInt = -|v.toInt|

/-- 41_telemetry_codec.md R105 (derived there): the frame comes back as (−|x|, |y|, |roll|, −|pitch|, −|b1|, −|b2|). -/
def Obligations.FrameRoundTrip : Prop :=
  ∀ (x y roll pitch b1 b2 : Byte) (s : State),
    (∀ v ∈ [x, y, roll, pitch, b1, b2], -8 ≤ v.toInt ∧ v.toInt ≤ 8) →
    ∃ (bytes : List Byte) (f : Frame),
      exec (.tlmEncf x y roll pitch b1 b2) s = .next { s with out := [.tlmDatagram bytes] } ∧
      exec (.tlmDecf bytes) s = .next { s with out := [.tlmFrame f] } ∧
      f.x.toInt = -|x.toInt| ∧ f.y.toInt = |y.toInt| ∧ f.roll.toInt = |roll.toInt| ∧
      f.pitch.toInt = -|pitch.toInt| ∧ f.button1.toInt = -|b1.toInt| ∧ f.button2.toInt = -|b2.toInt|

/-- 30_encoding.md R76 for the byte classes of the opcode table, each run as TLM.DEC's step on its byte (the model's
choice, log 13). -/
def Obligations.TelemetryWordClasses : Prop :=
  ∀ s : State,
    exec .tlmZero s = .next { s with out := [.tlmValue 0#8] } ∧
    (∀ m : BitVec 4, 1 ≤ m.toNat → m.toNat ≤ 8 → ∃ v : Byte,
      exec (.tlmLow m) s = .next { s with out := [.tlmValue v] } ∧ v.toInt = -(m.toNat : Int)) ∧
    (∀ h x : BitVec 4, 8 < 16 * h.toNat + x.toNat → ∃ v : Byte,
      exec (.tlmHigh h x) s = .next { s with out := [.tlmValue v] } ∧ v.toInt = -(h.toNat : Int))

/-- 10_state.md R20, 60_exceptions.md R227: the stateless units return a result that depends on their operands (and,
for CMD.PACK, on OVF_POLICY) and touch nothing.  The field `out` that shows the result is the model's (log 9). -/
def Obligations.StatelessUnitsTouchNothing : Prop :=
  ∀ (i : Instr) (s s' t : State),
    ((∃ v, i = .tlmEnc v) ∨ (∃ b, i = .tlmDec b) ∨ (∃ x y roll pitch b1 b2, i = .tlmEncf x y roll pitch b1 b2) ∨
      (∃ datagram, i = .tlmDecf datagram) ∨ (∃ d id, i = .cmdPack d id)) →
    s'.cfg.ovfPolicy = s.cfg.ovfPolicy →
    exec i s = .next t →
    t = { s with out := t.out } ∧ exec i s' = .next { s' with out := t.out }

/-! ### Quadrature decoder -/

/-- 30_encoding.md R79, 42_quadrature_decoder.md R121: the legal PHASE_MAPs are exactly the bijections under which
codes c and c + 1 come from pin words that differ in one bit, and each of G0 to G7 has the pin words of its row of R121.
Under every one a double skip moves both pins (derived there).  The default G0 is the spec's own choice D4. -/
def Obligations.PhaseMapsAreTheGrayBijections : Prop :=
  (∀ f : BitVec 2 → BitVec 2,
    (∃ map : PhaseMap, ∀ g, f g = phaseCode map g) ↔
      (Function.Bijective f ∧ ∀ g g' : BitVec 2, f g' = f g + 1#2 → g ^^^ g' = 1#2 ∨ g ^^^ g' = 2#2)) ∧
  (∀ row ∈ Spec.phaseRows,
    phaseCode row.1 row.2.1 = 0#2 ∧ phaseCode row.1 row.2.2.1 = 1#2 ∧
    phaseCode row.1 row.2.2.2.1 = 2#2 ∧ phaseCode row.1 row.2.2.2.2 = 3#2) ∧
  (∀ (map : PhaseMap) (g g' : BitVec 2), phaseCode map g' = phaseCode map g + 2#2 ↔ g ^^^ g' = 3#2) ∧
  Config.standard.phaseMap = .g0

/-- 30_encoding.md R82: the sixteen rows, the double skips, and the closed form. -/
def Obligations.QstepTable : Prop :=
  (∀ row ∈ Spec.comboRows, qstep (row.2.1 ++ row.2.2.1) = row.2.2.2) ∧
  (∀ key : BitVec 4, isDoubleSkip key = true ↔ key ∈ Spec.doubleSkips) ∧
  (∀ old new : BitVec 2, qstep (old ++ new) = Spec.closedStep old new)

/-- 42_quadrature_decoder.md R122, R123, R125: the whole effect of QDEC.SAMPLE.  That QPOS wraps is the spec's own
choice D6, that the pair is sampled at once D37, the sticky report D21. -/
def Obligations.SampleStepsTheDecoder : Prop :=
  ∀ (m : Motor) (s : State),
    let c := s.chan m
    let new := phaseCode s.cfg.phaseMap (c.encA ++ c.encB)
    let resync := decide (s.cfg.encoderFaultReport = .stickyFlag) && decide (new = c.qphase + 2#2)
    exec (.qdecSample m) s =
      .next { s.setChan m
                { c with
                  qpos := BitVec.ofInt 16 (c.qpos.toInt + Spec.closedStep c.qphase new)
                  qphase := new
                  encResync := c.encResync || resync } with
              out := if resync then [.status (.encoderResync m)] else [] }

/-- 42_quadrature_decoder.md R126: every sample is defined, for every phase and every pin pair, and the first phase
comes from the pins at construction. -/
def Obligations.SampleDefinedEverywhere : Prop :=
  (∀ (m : Motor) (a b : Bit) (q : BitVec 2) (s : State), ∃ t : State,
    exec (.qdecSample m) (s.setChan m { s.chan m with encA := a, encB := b, qphase := q }) = .next t ∧
    (t.chan m).qphase = phaseCode s.cfg.phaseMap (a ++ b)) ∧
  (∀ (a0 b0 a1 b1 : Bit) (s : State), ∃ t : State,
    exec (.reset a0 b0 a1 b1) s = .next t ∧
    t.ch0.qphase = phaseCode s.cfg.phaseMap (a0 ++ b0) ∧ t.ch1.qphase = phaseCode s.cfg.phaseMap (a1 ++ b1))

/-- 30_encoding.md R82, 42_quadrature_decoder.md R122, R125: what each of the sixteen combo words does to motor m's
decoder.  That a word is run as a decoder step, whatever QPHASE holds, is the model's choice (log 12). -/
def Obligations.ComboWordsStepTheDecoder : Prop :=
  ∀ (m : Motor) (s : State), ∀ row ∈ Spec.comboRows,
    let c := s.chan m
    let resync := decide (s.cfg.encoderFaultReport = .stickyFlag) && decide (row.2.1 ++ row.2.2.1 ∈ Spec.doubleSkips)
    exec (row.1 m) s =
      .next { s.setChan m
                { c with
                  qpos := BitVec.ofInt 16 (c.qpos.toInt + row.2.2.2)
                  qphase := row.2.2.1
                  encResync := c.encResync || resync } with
              out := if resync then [.status (.encoderResync m)] else [] }

/-- 30_encoding.md R81, 42_quadrature_decoder.md R122: a sample is the step of the word that its combo key decodes to
(the words as operations are the model's choice, log 12). -/
def Obligations.SampleRunsItsComboWord : Prop :=
  ∀ (m : Motor) (s : State), ∃ i : Instr,
    decode ⟨.qdecKey m,
      [0#4 ++ ((s.chan m).qphase ++ phaseCode s.cfg.phaseMap ((s.chan m).encA ++ (s.chan m).encB))]⟩ = .ok i ∧
    exec (.qdecSample m) s = exec i s

/-- 42_quadrature_decoder.md R129 (derived there): a sample whose pins match the phase changes no state. -/
def Obligations.SampleWithoutMovementIsANoOp : Prop :=
  ∀ (m : Motor) (s : State),
    phaseCode s.cfg.phaseMap ((s.chan m).encA ++ (s.chan m).encB) = (s.chan m).qphase →
    exec (.qdecSample m) s = .next { s with out := [] }

/-- 42_quadrature_decoder.md R128, R124 (derived there): over any sequence of pin pairs, each sampled, QPOS moves by
forward steps minus backward steps modulo 2^16 (D6), a double skip counting nothing, and the phase is the last one. -/
def Obligations.SamplesCountForwardMinusBackward : Prop :=
  ∀ (m : Motor) (pins : List (Bit × Bit)) (s : State), ∃ t : State,
    let codes := pins.map fun p => phaseCode s.cfg.phaseMap (p.1 ++ p.2)
    runOps (pins.flatMap fun p => [.evPin m p.1 p.2, .qdecSample m]) s = .next t ∧
    (t.chan m).qpos = BitVec.ofInt 16 ((s.chan m).qpos.toInt + Spec.netSteps (s.chan m).qphase codes) ∧
    (t.chan m).qphase = Spec.lastCode (s.chan m).qphase codes

/-- 60_exceptions.md R213 (and 42_quadrature_decoder.md R125, which it names): with OFF no sample reports anything or
touches ENC_RESYNC; with STICKY_FLAG a sample reports exactly on a double skip.  The read of ENC_RESYNC (10_state.md R30,
60_exceptions.md R227) exists only with STICKY_FLAG, and then gives the register (log 14). -/
def Obligations.ResyncIsReportedOnlyWithStickyFlag : Prop :=
  ∀ (m : Motor) (s : State), ∃ t : State, exec (.qdecSample m) s = .next t ∧
    (s.cfg.encoderFaultReport = .off →
      t.out = [] ∧ (t.chan m).encResync = (s.chan m).encResync ∧
      ∀ n : Motor, encResyncOut s n = none ∧ encResyncOut t n = none) ∧
    (s.cfg.encoderFaultReport = .stickyFlag →
      (Output.status (.encoderResync m) ∈ t.out ↔
        phaseCode s.cfg.phaseMap ((s.chan m).encA ++ (s.chan m).encB) = (s.chan m).qphase + 2#2) ∧
      ((t.chan m).encResync = true ↔
        (s.chan m).encResync = true ∨
          phaseCode s.cfg.phaseMap ((s.chan m).encA ++ (s.chan m).encB) = (s.chan m).qphase + 2#2) ∧
      encResyncOut t m = some (t.chan m).encResync ∧
      ∀ n : Motor, encResyncOut s n = some (s.chan n).encResync ∧ (n ≠ m → encResyncOut t n = encResyncOut s n))

/-! ### Motor command codec -/

/-- 43_motor_command_codec.md R140, R142, 60_exceptions.md R211, R212: both bytes, OVF and the report, with an
overflowing delta clamped or truncated (the spec's own choice D14; the i16 operand is D15). -/
def Obligations.PackCommand : Prop :=
  ∀ (d : Word) (id : Bit) (s : State),
    let ovf := decide (d.toInt ≤ -8192 ∨ 8192 ≤ d.toInt)
    let sent : Int :=
      if ovf = true ∧ s.cfg.ovfPolicy = .clampAndFlag then (if d.toInt < 0 then -8191 else 8191) else d.toInt
    let f := (sent % 8192).toNat
    ∃ msw lsw : Byte,
      msw.toNat = 128 + 64 * id.toNat + f / 128 ∧ lsw.toNat = f % 128 ∧
      exec (.cmdPack d id) s =
        .next { s with out := .packed msw lsw ovf :: if ovf then [.status (.commandOverflow d)] else [] }

/-- 43_motor_command_codec.md R141: OVF = 1 exactly when |d| ≥ 2^13. -/
def Obligations.PackOverflowExactly : Prop :=
  ∀ (d : Word) (id : Bit) (s : State), ∃ (msw lsw : Byte) (ovf : Bool) (rest : List Output),
    exec (.cmdPack d id) s = .next { s with out := .packed msw lsw ovf :: rest } ∧
    (ovf = true ↔ 2 ^ 13 ≤ |d.toInt|)

/-- 43_motor_command_codec.md R143 (derived there): d in [−8191, −1] and d + 8192 pack to the same two bytes. -/
def Obligations.NegativeDeltasAlias : Prop :=
  ∀ (d : Word) (id : Bit) (s : State), -8191 ≤ d.toInt → d.toInt ≤ -1 →
    ∃ msw lsw : Byte,
      exec (.cmdPack d id) s = .next { s with out := [.packed msw lsw false] } ∧
      exec (.cmdPack (d + 8192#16) id) s = .next { s with out := [.packed msw lsw false] }

/-- 43_motor_command_codec.md R145, R146: the receiver's registers and its emission, for every byte and state. -/
def Obligations.ReceiverStepsOnAByte : Prop :=
  ∀ (b : Byte) (s : State), ∃ t : State, exec (.cmdRx b) s = .next t ∧
    (b.getLsbD 7 = true →
      t.rxMotor = b.extractLsb' 6 1 ∧ t.rxHigh6 = b.extractLsb' 0 6 ∧ t.rxState = .awaitingLsw ∧ t.out = []) ∧
    (b.getLsbD 7 = false → s.rxState = .awaitingLsw →
      t.rxMotor = s.rxMotor ∧ t.rxHigh6 = s.rxHigh6 ∧ t.rxState = .awaitingMsw ∧
      t.out = [.emit s.rxMotor (assemble s.cfg.unpackSignMode s.rxHigh6 (b.extractLsb' 0 7))]) ∧
    (b.getLsbD 7 = false → s.rxState = .awaitingMsw → t = { s with out := [] })

/-- 43_motor_command_codec.md R147: an emission writes TARGET of its motor and nothing else beside RX_STATE; an MSW
writes the receiver's registers alone.  The routing is the spec's own choice D17. -/
def Obligations.EmissionWritesTarget : Prop :=
  ∀ (b : Byte) (s : State),
    (b.getLsbD 7 = true →
      exec (.cmdRx b) s =
        .next { s with rxMotor := b.extractLsb' 6 1, rxHigh6 := b.extractLsb' 0 6, rxState := .awaitingLsw, out := [] }) ∧
    (b.getLsbD 7 = false → s.rxState = .awaitingLsw →
      let m : Motor := if s.rxMotor = 1#1 then .m1 else .m0
      let v := assemble s.cfg.unpackSignMode s.rxHigh6 (b.extractLsb' 0 7)
      exec (.cmdRx b) s =
        .next { s.setChan m { s.chan m with target := v } with rxState := .awaitingMsw, out := [.emit s.rxMotor v] })

/-- 30_encoding.md R71, R72, 43_motor_command_codec.md R145: the two command-byte classes are the receiver's step on a
byte of that class (words as operations are the model's choice, log 13). -/
def Obligations.CommandWordsStepTheReceiver : Prop :=
  ∀ s : State,
    (∀ (id : Bit) (hi6 : BitVec 6),
      exec (.cmdMsw id hi6) s =
        .next { s with rxMotor := id, rxHigh6 := hi6, rxState := .awaitingLsw, out := [] } ∧
      exec (.cmdRx (1#1 ++ id ++ hi6)) s = exec (.cmdMsw id hi6) s) ∧
    (∀ lo7 : BitVec 7,
      exec (.cmdRx (0#1 ++ lo7)) s = exec (.cmdLsw lo7) s ∧
      (s.rxState = .awaitingMsw → exec (.cmdLsw lo7) s = .next { s with out := [] }) ∧
      (s.rxState = .awaitingLsw →
        let m : Motor := if s.rxMotor = 1#1 then .m1 else .m0
        let v := assemble s.cfg.unpackSignMode s.rxHigh6 lo7
        exec (.cmdLsw lo7) s =
          .next { s.setChan m { s.chan m with target := v } with
                  rxState := .awaitingMsw, out := [.emit s.rxMotor v] }))

/-- 43_motor_command_codec.md R144, 30_encoding.md R74: the assembled value under both settings of UNPACK_SIGN_MODE
(the default is the spec's own choice D13). -/
def Obligations.AssembledValue : Prop :=
  ∀ (hi6 : BitVec 6) (lo7 : BitVec 7),
    let f : Int := 128 * hi6.toNat + lo7.toNat
    (assemble .zeroExtend hi6 lo7).toInt = f ∧
    (assemble .signExtend13 hi6 lo7).toInt = if f < 4096 then f else f - 8192

/-- 43_motor_command_codec.md R148 (derived there): a packed command fed to the receiver, from either receiver state,
emits its motor id and the value of its field, which is the delta exactly on the range of the sign mode. -/
def Obligations.CommandRoundTrip : Prop :=
  ∀ (d : Word) (id : Bit) (s : State),
    ∃ (msw lsw : Byte) (ovf : Bool) (rest : List Output) (t : State) (v : Word),
      exec (.cmdPack d id) s = .next { s with out := .packed msw lsw ovf :: rest } ∧
      runOps [.cmdRx msw, .cmdRx lsw] s = .next t ∧
      t.out = [.emit id v] ∧ t.rxState = .awaitingMsw ∧ t.rxMotor = id ∧
      (s.cfg.unpackSignMode = .zeroExtend →
        (v = d ↔ 0 ≤ d.toInt ∧ d.toInt ≤ 8191) ∧
        (-8191 ≤ d.toInt → d.toInt ≤ -1 → v.toInt = d.toInt + 8192)) ∧
      (s.cfg.unpackSignMode = .signExtend13 → (v = d ↔ -4096 ≤ d.toInt ∧ d.toInt ≤ 4095))

/-- 43_motor_command_codec.md R149 (derived there): after any bytes, an LSW emits exactly when the byte processed just
before it is an MSW, and then with that MSW's id and high bits; an MSW never emits and always leaves AwaitingLSW. -/
def Obligations.ReceiverResynchronises : Prop :=
  ∀ (before : List Byte) (p l : Byte) (s : State), l.getLsbD 7 = false → ∃ t u : State,
    runOps ((before ++ [p]).map .cmdRx) s = .next t ∧ exec (.cmdRx l) t = .next u ∧
    (p.getLsbD 7 = true →
      t.rxState = .awaitingLsw ∧ t.out = [] ∧
      u.out = [.emit (p.extractLsb' 6 1)
        (assemble s.cfg.unpackSignMode (p.extractLsb' 0 6) (l.extractLsb' 0 7))]) ∧
    (p.getLsbD 7 = false → u = { t with out := [] })

/-- 43_motor_command_codec.md R150 (derived there): a byte processed twice in a row has the same effect as once. -/
def Obligations.RepeatedByteHasNoFurtherEffect : Prop :=
  ∀ (b : Byte) (s : State), ∃ t : State,
    exec (.cmdRx b) s = .next t ∧ exec (.cmdRx b) t = .next { t with out := [] }

/-! ### Status codes -/

/-- 60_exceptions.md R211: CMD.PACK reports 1 (COMMAND_OVERFLOW) on overflow, QDEC.SAMPLE 2 (ENCODER_RESYNC) on a double
skip with STICKY_FLAG, and each 0 (NONE) otherwise.  The numbers are the spec's own choice D29. -/
def Obligations.StatusCodesOfReports : Prop :=
  ∀ s : State,
    (∀ (d : Word) (id : Bit), ∃ t : State, exec (.cmdPack d id) s = .next t ∧
      statusCode t.out = if d.toInt ≤ -8192 ∨ 8192 ≤ d.toInt then 1 else 0) ∧
    (∀ m : Motor, ∃ t : State, exec (.qdecSample m) s = .next t ∧
      statusCode t.out =
        if s.cfg.encoderFaultReport = .stickyFlag ∧
            phaseCode s.cfg.phaseMap ((s.chan m).encA ++ (s.chan m).encB) = (s.chan m).qphase + 2#2 then 2
        else 0)

/-! ### Servo -/

/-- 44_servo.md R170, R171: the outputs by the sign of the error under both arithmetics, everything else unchanged.
That DIR keeps its value at error 0 is the spec's own choice D10, ERR_ARITH D12. -/
def Obligations.ServoStepsBySign : Prop :=
  ∀ (m : Motor) (s : State), ∃ c' : Channel,
    exec (.servoStep m) s = .next { s.setChan m c' with out := [] } ∧
    Spec.drivenBy (Spec.servoErr s.cfg.errArith (s.chan m)) (s.chan m) c'

/-- 44_servo.md R171 (derived there): the two arithmetics agree while −32768 ≤ TARGET − QPOS ≤ 32767, and outside that
range the direction is the opposite one (log 18 on the end −32768). -/
def Obligations.ServoArithmeticsAgreeInRange : Prop :=
  ∀ (m : Motor) (s : State), ∃ t u : State,
    exec (.servoStep m) { s with cfg := { s.cfg with errArith := .exact } } = .next t ∧
    exec (.servoStep m) { s with cfg := { s.cfg with errArith := .wrap16 } } = .next u ∧
    (let diff := (s.chan m).target.toInt - (s.chan m).qpos.toInt
     (-32768 ≤ diff ∧ diff ≤ 32767 → u.chan m = t.chan m) ∧
     (32767 < diff → (t.chan m).dir = .fwd ∧ (u.chan m).dir = .rev) ∧
     (diff < -32768 → (t.chan m).dir = .rev ∧ (u.chan m).dir = .fwd))

/-- 10_state.md R26, R27, R28, 44_servo.md R170, R174: for every DutyT and every non-zero PWM_DUTY_ON, the duty pin is
zero after a servo step exactly when the step reports at-target, and PWM_DUTY_ON otherwise.  For every DIR_PIN_LEVELS,
the direction pins show FWD at a positive error, REV at a negative one, and stay at error 0 (the spec's own choice D10);
the other motor's pins stay.  The views over the OPEN types are the model's (log 8). -/
def Obligations.DutyPinIsZeroExactlyAtTarget : Prop :=
  ∀ (DutyT Levels : Type) (zero pwmDutyOn : DutyT) (dirPinLevels : Dir → Levels), pwmDutyOn ≠ zero →
    ∀ (m : Motor) (s : State), ∃ t : State,
      exec (.servoStep m) s = .next t ∧
      let err := Spec.servoErr s.cfg.errArith (s.chan m)
      (dutyOut zero pwmDutyOn t m = zero ↔ atTargetOut t m = true) ∧
      (atTargetOut t m = true ↔ err = 0) ∧
      (err ≠ 0 → dutyOut zero pwmDutyOn t m = pwmDutyOn) ∧
      (0 < err → dirOut dirPinLevels t m = dirPinLevels .fwd) ∧
      (err < 0 → dirOut dirPinLevels t m = dirPinLevels .rev) ∧
      (err = 0 → dirOut dirPinLevels t m = dirOut dirPinLevels s m) ∧
      (∀ n : Motor, n ≠ m →
        dutyOut zero pwmDutyOn t n = dutyOut zero pwmDutyOn s n ∧
        dirOut dirPinLevels t n = dirOut dirPinLevels s n ∧ atTargetOut t n = atTargetOut s n)

/-! ### Triggers and sequencer -/

/-- 45_sequencer.md R190, R191, 60_exceptions.md R219, R227: a trigger sets its flag, moves its pins or latches its byte,
touches nothing else, and gets nothing back; a read of an output sends and touches nothing, and gets the register back,
ENC_RESYNC only with STICKY_FLAG (log 14).  `EnvMove` has no other move.  One flag a motor is the spec's own choice D19,
the one-byte latch D18, that these are all the moves D36. -/
def Obligations.TriggersSetTheirFlag : Prop :=
  ∀ s : State,
    (∀ (m : Motor) (a b : Bit),
      exec (.evPin m a b) s =
        .next { s.setChan m { s.chan m with encA := a, encB := b, encFlag := true } with out := [] }) ∧
    (∀ b : Byte, exec (.evRxbyte b) s = .next { s with rxByte := b, cmdFlag := true, out := [] }) ∧
    (∀ (e : EnvMove) (i : Instr), e.sends = some i → exec i s = .next (e.run s) ∧ e.answer s = .nothing) ∧
    (∀ e : EnvMove, e.sends = none ↔ ∃ p, e = .read p) ∧
    (∀ p : OutputPort, (EnvMove.read p).run s = s) ∧
    (∀ m : Motor,
      (EnvMove.read (.dir m)).answer s = .dir (s.chan m).dir ∧
      (EnvMove.read (.duty m)).answer s = .duty (s.chan m).duty ∧
      (EnvMove.read (.atTarget m)).answer s = .atTarget (s.chan m).atTarget ∧
      (s.cfg.encoderFaultReport = .off → (EnvMove.read (.encResync m)).answer s = .nothing) ∧
      (s.cfg.encoderFaultReport = .stickyFlag →
        (EnvMove.read (.encResync m)).answer s = .encResync (s.chan m).encResync))

/-- 30_encoding.md R86: EV.PINS is EV.PIN where the pins differ, and nothing where they do not (D30). -/
def Obligations.EvPinsOnlyOnChange : Prop :=
  ∀ (m : Motor) (a b : Bit) (s : State),
    ((s.chan m).encA = a ∧ (s.chan m).encB = b → exec (.evPins m a b) s = .next { s with out := [] }) ∧
    (¬((s.chan m).encA = a ∧ (s.chan m).encB = b) →
      exec (.evPins m a b) s =
        .next { s.setChan m { s.chan m with encA := a, encB := b, encFlag := true } with out := [] })

/-- 45_sequencer.md R192 to R196: what USTEP does at each of the eleven positions.  The list and its order are the
spec's own choice D20. -/
def Obligations.MicroStepsOfThePass : Prop :=
  ∀ s : State,
    (∀ m : Motor, s.seqPc = Spec.encService m →
      exec .ustep s = .next { s with hit := (s.chan m).encFlag, seqPc := s.seqPc + 1, out := [] }) ∧
    (∀ m : Motor, s.seqPc = Spec.encService m + 1 →
      exec .ustep s =
        .next { s.setChan m { s.chan m with encFlag := (s.chan m).encFlag && !s.hit } with
                seqPc := s.seqPc + 1, out := [] }) ∧
    (∀ m : Motor, s.seqPc = Spec.encService m + 2 →
      (s.hit = false → exec .ustep s = .next { s with seqPc := s.seqPc + 1, out := [] }) ∧
      (s.hit = true → ∃ t, exec (.qdecSample m) s = .next t ∧ exec .ustep s = .next { t with seqPc := s.seqPc + 1 })) ∧
    (s.seqPc = 6 → exec .ustep s = .next { s with hit := s.cmdFlag, seqPc := 7, out := [] }) ∧
    (s.seqPc = 7 → exec .ustep s = .next { s with cmdFlag := s.cmdFlag && !s.hit, seqPc := 8, out := [] }) ∧
    (s.seqPc = 8 →
      (s.hit = false → exec .ustep s = .next { s with seqPc := 9, out := [] }) ∧
      (s.hit = true → ∃ t, exec (.cmdRx s.rxByte) s = .next t ∧ exec .ustep s = .next { t with seqPc := 9 })) ∧
    (s.seqPc = 9 → ∃ t, exec (.servoStep .m0) s = .next t ∧ exec .ustep s = .next { t with seqPc := 10 }) ∧
    (s.seqPc = 10 → ∃ t, exec (.servoStep .m1) s = .next t ∧ exec .ustep s = .next { t with seqPc := 0 })

/-- 45_sequencer.md R198: the sequencer always steps, and after the last micro-step the pass starts again. -/
def Obligations.SequencerAlwaysSteps : Prop :=
  ∀ s : State, ∃ t : State, exec .ustep s = .next t ∧
    (s.seqPc.val < 10 → t.seqPc.val = s.seqPc.val + 1) ∧ (s.seqPc.val = 10 → t.seqPc.val = 0)

/-- 30_encoding.md R86, 45_sequencer.md R201: PASS is the micro-steps until SEQ_PC returns to 0, eleven from 0, with
nothing between them (D30).  That it is one step of the model is the model's choice (log 10). -/
def Obligations.PassIsItsMicroSteps : Prop :=
  ∀ (n : Nat) (s : State), n + s.seqPc.val = 11 → ∃ t : State,
    runOps (List.replicate n .ustep) s = .next t ∧ t.seqPc = 0 ∧
    exec .pass s = .next { t with out := Spec.allOutputs (List.replicate n .ustep) s }

/-- 45_sequencer.md R199 (derived there): of several triggers of one kind only the last one's pins or byte remain,
under one set flag. -/
def Obligations.TriggersCoalesce : Prop :=
  (∀ (before : List Byte) (b : Byte) (s : State),
    runOps ((before ++ [b]).map .evRxbyte) s = .next { s with rxByte := b, cmdFlag := true, out := [] }) ∧
  (∀ (m : Motor) (before : List (Bit × Bit)) (a b : Bit) (s : State),
    runOps ((before ++ [(a, b)]).map fun p => .evPin m p.1 p.2) s =
      .next { s.setChan m { s.chan m with encA := a, encB := b, encFlag := true } with out := [] })

/-- 45_sequencer.md R200, command service (derived there): a byte delivered in each of the four windows of a service. -/
def Obligations.CommandTriggerWindows : Prop :=
  ∀ (b : Byte) (s : State), s.seqPc = 6 →
    (s.cmdFlag = false →
      runOps [.ustep, .evRxbyte b, .ustep, .ustep] s =
        .next { s with hit := false, rxByte := b, cmdFlag := true, seqPc := 9, out := [] }) ∧
    (s.cmdFlag = true → ∃ t, exec (.cmdRx b) s = .next t ∧
      runOps [.ustep, .evRxbyte b, .ustep, .ustep] s =
        .next { t with hit := true, rxByte := b, cmdFlag := false, seqPc := 9 }) ∧
    (s.cmdFlag = true → ∃ t, exec (.cmdRx b) s = .next t ∧
      runOps [.ustep, .ustep, .evRxbyte b, .ustep] s =
        .next { t with hit := true, rxByte := b, cmdFlag := true, seqPc := 9 }) ∧
    (s.cmdFlag = true → ∃ t, exec (.cmdRx s.rxByte) s = .next t ∧
      runOps [.ustep, .ustep, .ustep, .evRxbyte b] s =
        .next { t with hit := true, rxByte := b, cmdFlag := true, seqPc := 9, out := [] })

/-- 45_sequencer.md R200, encoder service (derived there): a pin change in each of the four windows of a service. -/
def Obligations.EncoderTriggerWindows : Prop :=
  ∀ (m : Motor) (a b : Bit) (s : State), s.seqPc = Spec.encService m →
    let moved (flag : Bool) := s.setChan m { s.chan m with encA := a, encB := b, encFlag := flag }
    ((s.chan m).encFlag = false →
      runOps [.ustep, .evPin m a b, .ustep, .ustep] s =
        .next { moved true with hit := false, seqPc := s.seqPc + 3, out := [] }) ∧
    ((s.chan m).encFlag = true → ∃ t, exec (.qdecSample m) (moved false) = .next t ∧
      runOps [.ustep, .evPin m a b, .ustep, .ustep] s = .next { t with hit := true, seqPc := s.seqPc + 3 }) ∧
    ((s.chan m).encFlag = true → ∃ t, exec (.qdecSample m) (moved true) = .next t ∧
      runOps [.ustep, .ustep, .evPin m a b, .ustep] s = .next { t with hit := true, seqPc := s.seqPc + 3 }) ∧
    ((s.chan m).encFlag = true → ∃ t, exec (.qdecSample m) s = .next t ∧
      runOps [.ustep, .ustep, .ustep, .evPin m a b] s =
        .next { t.setChan m { t.chan m with encA := a, encB := b, encFlag := true } with
                hit := true, seqPc := s.seqPc + 3, out := [] })

/-- 45_sequencer.md R192, 60_exceptions.md R218 (derived there): the updates of the services commute.  The order of a
sample and a receiver step, and of the two samples, cannot be seen in the state (the outputs apart, log 9). -/
def Obligations.ServicesCommute : Prop :=
  ∀ s : State,
    (∀ (m : Motor) (b : Byte), ∃ t u : State,
      runOps [.qdecSample m, .cmdRx b] s = .next t ∧ runOps [.cmdRx b, .qdecSample m] s = .next u ∧
      { u with out := [] } = { t with out := [] }) ∧
    (∃ t u : State,
      runOps [.qdecSample .m0, .qdecSample .m1] s = .next t ∧ runOps [.qdecSample .m1, .qdecSample .m0] s = .next u ∧
      { u with out := [] } = { t with out := [] })

/-- The whole path of a command (43_motor_command_codec.md R140, R145, R147, R148, 44_servo.md R170, 45_sequencer.md
R192, 70_reset_and_hazards.md R251): from any state at the start of a pass, with a pass after each byte, a delta in the
exact range of the sign mode becomes TARGET of its motor, and the other motor's target stays.  `p` is the state before
the two servo micro-steps of the second pass: they start from the new targets, and leave in each channel of `t` what
R170 gives for the channel of `p`.  It rests on the spec's own choices D10, D12, D13, D14, D17 and D20. -/
def Obligations.CommandDeliveryDrivesTheServo : Prop :=
  ∀ (d : Word) (m : Motor) (s : State), s.seqPc = 0 → Spec.exactDelta s.cfg.unpackSignMode d →
    ∃ (msw lsw : Byte) (p t : State),
      exec (.cmdPack d (motorBit m)) s = .next { s with out := [.packed msw lsw false] } ∧
      runOps ([.evRxbyte msw, .pass, .evRxbyte lsw] ++ List.replicate 9 .ustep) s = .next p ∧
      runOps [.evRxbyte msw, .pass, .evRxbyte lsw, .pass] s = .next t ∧
      p.seqPc = 9 ∧ (p.chan m).target = d ∧ (∀ n : Motor, n ≠ m → (p.chan n).target = (s.chan n).target) ∧
      t.seqPc = 0 ∧ t.cmdFlag = false ∧ t.rxState = .awaitingMsw ∧
      (t.chan m).target = d ∧ (∀ n : Motor, n ≠ m → (t.chan n).target = (s.chan n).target) ∧
      (∀ n : Motor, Spec.drivenBy (Spec.servoErr s.cfg.errArith (p.chan n)) (p.chan n) (t.chan n))

/-- 30_encoding.md R86: CMD.SEND is CMD.PACK, then EV.RXBYTE MSW, then EV.RXBYTE LSW (D30).  What the receiving node
does between the two bytes is free (log 11): the statement holds for every value of the gap. -/
def Obligations.SendIsPackAndTwoBytes : Prop :=
  ∀ (d : Word) (id : Bit) (s : State),
    let gap := (Config.sendGap s.draws).map gapInstr
    ∃ (msw lsw : Byte) (packOut : List Output) (t : State),
      exec (.cmdPack d id) s = .next { s with out := packOut } ∧
      (∃ ovf rest, packOut = .packed msw lsw ovf :: rest) ∧
      runOps ([.evRxbyte msw] ++ gap ++ [.evRxbyte lsw]) s = .next t ∧
      exec (.cmdSend d id) s =
        .next { t with
                draws := s.draws + 1
                out := packOut ++ Spec.allOutputs ([.evRxbyte msw] ++ gap ++ [.evRxbyte lsw]) s }

/-! ### Reset -/

/-- 70_reset_and_hazards.md R240: what RESET leaves, with DIR, RX_MOTOR, RX_HIGH6 and RX_BYTE free (log 4), the
configuration kept (R39) and the agenda kept (log 16).  QPHASE's value is the source's, the others the spec's own
choices D7, D8, D9, D16, D20, D38. -/
def Obligations.ResetConstructs : Prop :=
  ∀ (a0 b0 a1 b1 : Bit) (s : State),
    ∃ (dir0 dir1 : Dir) (rxMotor : Bit) (rxHigh6 : BitVec 6) (rxByte : Byte),
      exec (.reset a0 b0 a1 b1) s =
        .next
          { cfg := s.cfg
            ch0 :=
              { encA := a0, encB := b0, qphase := phaseCode s.cfg.phaseMap (a0 ++ b0), qpos := 0#16, target := 0#16,
                dir := dir0, duty := .zero, atTarget := false, encFlag := false, encResync := false }
            ch1 :=
              { encA := a1, encB := b1, qphase := phaseCode s.cfg.phaseMap (a1 ++ b1), qpos := 0#16, target := 0#16,
                dir := dir1, duty := .zero, atTarget := false, encFlag := false, encResync := false }
            rxState := .awaitingMsw
            rxMotor := rxMotor
            rxHigh6 := rxHigh6
            rxByte := rxByte
            cmdFlag := false
            seqPc := 0
            hit := false
            out := []
            agenda := s.agenda
            draws := s.draws + 1 }

/-- State.reset is the construction with every pin low and every parameter at its default (log 5, log 6). -/
def Obligations.ResetStateIsAConstruction : Prop :=
  exec (.reset 0#1 0#1 0#1 0#1) { State.reset with draws := 0 } = .next State.reset ∧
  State.reset.cfg = Config.standard

/-- 70_reset_and_hazards.md R241 (derived there): a first pass without a trigger services nothing, and both servos
write duty 0 and at-target. -/
def Obligations.FirstPassAfterResetHoldsStill : Prop :=
  ∀ (a0 b0 a1 b1 : Bit) (s t : State), exec (.reset a0 b0 a1 b1) s = .next t →
    exec .pass t =
      .next { t with
              ch0 := { t.ch0 with duty := .zero, atTarget := true }
              ch1 := { t.ch1 with duty := .zero, atTarget := true } }

/-! ### The whole machine -/

/-- 00_scope.md R12: every operation is total; it is refused exactly where an input precondition is violated, and
nothing faults. -/
def Obligations.OperationsAreTotal : Prop :=
  ∀ (i : Instr) (s : State),
    (¬Spec.preconditionViolated i → ∃ t, exec i s = .next t) ∧
    (Spec.preconditionViolated i → ∃ r, exec i s = .refused r) ∧
    (∀ r, exec i s ≠ .fault r)

/-- 10_state.md R25: TARGET[m] is written only by an emission with motor id m and by RESET (the routing is D17). -/
def Obligations.TargetWrittenOnlyByEmission : Prop :=
  ∀ (i : Instr) (m : Motor) (s t : State), exec i s = .next t → (t.chan m).target ≠ (s.chan m).target →
    Spec.isReset i ∨ ∃ v, Output.emit (motorBit m) v ∈ t.out

/-- 10_state.md R22, R23: QPHASE[m] and QPOS[m] are written only by a sample of motor m, which the sequencer runs at
its update micro-step after a hit, and by RESET.  (The combo words, log 12, and the pseudo-operations run one.) -/
def Obligations.DecoderWrittenOnlyBySamples : Prop :=
  ∀ (i : Instr) (m : Motor) (s t : State), exec i s = .next t →
    (t.chan m).qphase ≠ (s.chan m).qphase ∨ (t.chan m).qpos ≠ (s.chan m).qpos →
    i = .qdecSample m ∨ (∃ row ∈ Spec.comboRows, i = row.1 m) ∨ Spec.isReset i ∨ i = .pass ∨ Spec.isSend i ∨
    (i = .ustep ∧ s.seqPc = Spec.encService m + 2 ∧ s.hit = true)

/-- 10_state.md R26, R27, R28: DIR[m], DUTY[m] and AT_TARGET[m] are written only by SERVO.STEP m, which the sequencer
runs at its servo micro-step, and by RESET.  (The pseudo-operations run one.) -/
def Obligations.ServoOutputsWrittenOnlyByServo : Prop :=
  ∀ (i : Instr) (m : Motor) (s t : State), exec i s = .next t →
    (t.chan m).dir ≠ (s.chan m).dir ∨ (t.chan m).duty ≠ (s.chan m).duty ∨
      (t.chan m).atTarget ≠ (s.chan m).atTarget →
    i = .servoStep m ∨ Spec.isReset i ∨ i = .pass ∨ Spec.isSend i ∨
    (i = .ustep ∧ s.seqPc.val = 9 + (motorBit m).toNat)

/-- 10_state.md R29, R30, R34, R38: a sticky flag is cleared only by the sequencer's clear micro-step after a hit and by
RESET, and ENC_RESYNC only by RESET.  (PASS, and for an encoder CMD.SEND's gap, run micro-steps.) -/
def Obligations.StickyFlagsClearedOnlyBySequencer : Prop :=
  ∀ (i : Instr) (m : Motor) (s t : State), exec i s = .next t →
    ((s.chan m).encFlag = true → (t.chan m).encFlag = false →
      Spec.isReset i ∨ i = .pass ∨ Spec.isSend i ∨
      (i = .ustep ∧ s.seqPc = Spec.encService m + 1 ∧ s.hit = true)) ∧
    (s.cmdFlag = true → t.cmdFlag = false →
      Spec.isReset i ∨ i = .pass ∨ (i = .ustep ∧ s.seqPc = 7 ∧ s.hit = true)) ∧
    ((s.chan m).encResync = true → (t.chan m).encResync = false → Spec.isReset i)

/-- 10_state.md R39: no step changes the configuration (that it stands in State is the model's choice, log 6). -/
def Obligations.ConfigurationIsFixed : Prop :=
  ∀ s t : State, step s = .next t → t.cfg = s.cfg

/-- Every step keeps the invariant: TARGET is a value the receiver can produce (43_motor_command_codec.md R144,
44_servo.md R171), AT_TARGET comes with duty 0 (R170), and ENC_RESYNC is 0 with OFF (10_state.md R30; log 14). -/
def Obligations.EveryStepKeepsTheInvariant : Prop :=
  ∀ s t : State, Invariant s → step s = .next t → Invariant t

/-- The invariant holds at State.reset. -/
def Obligations.ResetMeetsTheInvariant : Prop :=
  Invariant State.reset

/-- A step runs the next delivery as its port and payload decode, and removes it; without one it is a USTEP; a delivery
that is no operation is refused (the agenda is the model's, log 1). -/
def Obligations.StepRunsTheNextDelivery : Prop :=
  ∀ s : State,
    (∀ (d : Delivery) (rest : List Delivery) (i : Instr), s.agenda = d :: rest → decode d = .ok i →
      step s = exec i { s with agenda := rest }) ∧
    (s.agenda = [] → step s = exec .ustep s) ∧
    (∀ (d : Delivery) (rest : List Delivery) (why : Reject), s.agenda = d :: rest → decode d = .error why →
      step s = .refused (.undeliverable why))

/-- 45_sequencer.md R197, 60_exceptions.md R227: every finite sequence of well-formed operations is a run of the machine:
the agenda that carries it makes the steps run exactly it.  So is every run of a motor node: a RESET, then any sequence
of the environment's moves and micro-steps (a read is no step).  And with an agenda of such moves alone a step never
stops, is one of them, and leaves such an agenda.  (D25, D36; the agenda is the model's, log 1, log 20.) -/
def Obligations.EveryInterleavingIsARun : Prop :=
  (∀ (ops : List Instr) (rest : List Delivery) (s : State), (∀ i ∈ ops, i.wf = true) →
    Sys2Proof.core.run ops.length { s with agenda := ops.map encode ++ rest } = runOps ops { s with agenda := rest }) ∧
  (∀ (a0 b0 a1 b1 : Bit) (moves : List NodeMove) (rest : List Delivery) (s : State),
    let sent := moves.filterMap NodeMove.sends
    ∃ t : State,
      exec (.reset a0 b0 a1 b1) { s with agenda := rest } = .next t ∧
      Sys2Proof.core.run (sent.length + 1) { s with agenda := encode (.reset a0 b0 a1 b1) :: sent.map encode ++ rest } =
        .next (nodeRun moves t)) ∧
  (∀ s : State, s.onlyNodeMoves = true → ∃ (move : NodeMove) (t : State),
    (∃ i, move.sends = some i ∧ ((s.agenda = [] ∧ i = .ustep) ∨ ∃ rest, s.agenda = encode i :: rest)) ∧
    t = move.run { s with agenda := s.agenda.tail } ∧ step s = .next t ∧ t.onlyNodeMoves = true)

/-! ### Encoding -/

/-- Every well-formed instruction is what its own delivery decodes to (30_encoding.md R71 to R82; the operand layout of
the operations' own ports is the model's, log 2). -/
def Obligations.DecodeOfEncode : Prop :=
  ∀ i : Instr, i.wf = true → decode (encode i) = .ok i

/-- Each delivery has one meaning and each meaning one delivery: no bit of a payload is dropped (log 2). -/
def Obligations.EncodeOfDecode : Prop :=
  ∀ (d : Delivery) (i : Instr), decode d = .ok i → encode i = d

/-- 30_encoding.md R73: every byte is an MSW or an LSW, by bit 7 alone. -/
def Obligations.CommandByteClassIsBitSeven : Prop :=
  ∀ b : Byte,
    (b.getLsbD 7 = true →
      decode ⟨.cmdByte, [b]⟩ = .ok (.cmdMsw (b.extractLsb' 6 1) (b.extractLsb' 0 6))) ∧
    (b.getLsbD 7 = false → decode ⟨.cmdByte, [b]⟩ = .ok (.cmdLsw (b.extractLsb' 0 7)))

/-- Words written out from the spec's encodings (30_encoding.md R71, R72, R75, R76, R81) decode to their rows. -/
def Obligations.WrittenWordsDecode : Prop :=
  decode ⟨.cmdByte, [0b11100111#8]⟩ = .ok (.cmdMsw 1#1 0b100111#6) ∧
  decode ⟨.cmdByte, [0b00001000#8]⟩ = .ok (.cmdLsw 0b0001000#7) ∧
  decode ⟨.tlmByte, [0b00000000#8]⟩ = .ok .tlmZero ∧
  decode ⟨.tlmByte, [0b00001000#8]⟩ = .ok (.tlmLow 0b1000#4) ∧
  decode ⟨.tlmByte, [0b00001001#8]⟩ = .ok (.tlmHigh 0b0000#4 0b1001#4) ∧
  decode ⟨.tlmByte, [0b01010000#8]⟩ = .ok (.tlmHigh 0b0101#4 0b0000#4) ∧
  decode ⟨.qdecKey .m1, [0b00001100#8]⟩ = .ok (.qcombo1100 .m1)
end

