-- ==== Sys2Proof/Laws/Bytes.lean ====
section
/-! SUPPORT. The fields of the command bytes, as bits and as numbers. -/

namespace Sys2Proof.Machine

@[simp] theorem isMsw_mswByte (id : Bit) (hi6 : BitVec 6) : isMsw (mswByte id hi6) = true := by
  revert id hi6
  decide +kernel

@[simp] theorem mswId_mswByte (id : Bit) (hi6 : BitVec 6) : mswId (mswByte id hi6) = id := by
  revert id hi6
  decide +kernel

@[simp] theorem mswHigh6_mswByte (id : Bit) (hi6 : BitVec 6) : mswHigh6 (mswByte id hi6) = hi6 := by
  revert id hi6
  decide +kernel

@[simp] theorem isMsw_lswByte (lo7 : BitVec 7) : isMsw (lswByte lo7) = false := by
  revert lo7
  decide +kernel

@[simp] theorem lswLow7_lswByte (lo7 : BitVec 7) : lswLow7 (lswByte lo7) = lo7 := by
  revert lo7
  decide +kernel

@[simp] theorem motorOfBit_motorBit (m : Motor) : motorOfBit (motorBit m) = m := by
  cases m <;> rfl

theorem mswByte_toNat (id : Bit) (hi6 : BitVec 6) : (mswByte id hi6).toNat = 128 + 64 * id.toNat + hi6.toNat := by
  revert id hi6
  decide +kernel

theorem lswByte_toNat (lo7 : BitVec 7) : (lswByte lo7).toNat = lo7.toNat := by
  revert lo7
  decide +kernel

theorem fieldHigh6_toNat (f : BitVec 13) : (fieldHigh6 f).toNat = f.toNat / 128 := by
  have := f.isLt
  simp [fieldHigh6, Nat.shiftRight_eq_div_pow]
  omega

theorem fieldLow7_toNat (f : BitVec 13) : (fieldLow7 f).toNat = f.toNat % 128 := by
  simp [fieldLow7]

/-- The field of a delta is the delta modulo 2^13. -/
theorem field13_toNat (d : Word) : ((field13 d).toNat : Int) = d.toInt % 8192 := by
  have := d.isLt
  simp [field13, BitVec.toInt_eq_toNat_bmod, Int.bmod_def]
  omega

/-- The two parts of a field, put together. -/
theorem field_toNat (hi6 : BitVec 6) (lo7 : BitVec 7) :
    (hi6 ++ lo7 : BitVec 13).toNat = 128 * hi6.toNat + lo7.toNat := by
  have := lo7.isLt
  rw [BitVec.toNat_append, Nat.shiftLeft_eq, Nat.mul_comm, ← Nat.two_pow_add_eq_or_of_lt this]

/-- An i16 operand is the two bytes it is sent as. -/
theorem wordOfBytes_toNat (hi lo : Byte) : (wordOfBytes hi lo).toNat = 256 * hi.toNat + lo.toNat := by
  have := lo.isLt
  rw [wordOfBytes, BitVec.toNat_append, Nat.shiftLeft_eq, Nat.mul_comm, ← Nat.two_pow_add_eq_or_of_lt this]

theorem wordOfBytes_wordBytes (d : Word) : wordOfBytes (d.extractLsb' 8 8) (d.extractLsb' 0 8) = d := by
  have := d.isLt
  apply BitVec.eq_of_toNat_eq
  rw [wordOfBytes_toNat]
  simp [Nat.shiftRight_eq_div_pow]
  omega

theorem wordBytes_wordOfBytes (hi lo : Byte) : wordBytes (wordOfBytes hi lo) = [hi, lo] := by
  have := hi.isLt
  have := lo.isLt
  simp only [wordBytes, List.cons.injEq, and_true]
  constructor <;> apply BitVec.eq_of_toNat_eq <;>
    simp only [BitVec.extractLsb'_toNat, wordOfBytes_toNat, Nat.shiftRight_eq_div_pow] <;> omega

/-- A 1-bit operand and its byte. -/
theorem bitOfByte_bitByte (b : Bit) : bitOfByte (bitByte b) = .ok b := by
  revert b
  decide

theorem bitByte_of_ok {b : Byte} {x : Bit} (h : bitOfByte b = .ok x) : bitByte x = b := by
  revert b x
  decide

/-- A motor index and its byte. -/
theorem motorOfByte_motorByte (m : Motor) : motorOfByte (motorByte m) = .ok m := by
  cases m <;> rfl

theorem motorByte_of_ok {b : Byte} {m : Motor} (h : motorOfByte b = .ok m) : motorByte m = b := by
  simp only [motorOfByte] at h
  split_ifs at h <;> cases h <;> simp [motorByte, *]

end Sys2Proof.Machine
end

