-- ==== Sys2Proof/Laws/State.lean ====
section
/-! SUPPORT. One lemma for each field and each update of the state, so that no proof unfolds a record update. -/

namespace Sys2Proof.Machine

@[simp] theorem chan_m0 (s : State) : s.chan .m0 = s.ch0 := rfl
@[simp] theorem chan_m1 (s : State) : s.chan .m1 = s.ch1 := rfl

/-! ### setChan -/

@[simp] theorem setChan_m0 (s : State) (c : Channel) : s.setChan .m0 c = { s with ch0 := c } := rfl
@[simp] theorem setChan_m1 (s : State) (c : Channel) : s.setChan .m1 c = { s with ch1 := c } := rfl

@[simp] theorem chan_setChan_same (s : State) (m : Motor) (c : Channel) : (s.setChan m c).chan m = c := by
  cases m <;> rfl

theorem chan_setChan_other (s : State) {m n : Motor} (c : Channel) (h : n ≠ m) :
    (s.setChan m c).chan n = s.chan n := by
  cases m <;> cases n <;> first | rfl | exact absurd rfl h

@[simp] theorem setChan_chan (s : State) (m : Motor) : s.setChan m (s.chan m) = s := by cases m <;> rfl
@[simp] theorem setChan_setChan (s : State) (m : Motor) (c c' : Channel) :
    (s.setChan m c).setChan m c' = s.setChan m c' := by cases m <;> rfl
@[simp] theorem setChan_cfg (s : State) (m : Motor) (c : Channel) : (s.setChan m c).cfg = s.cfg := by cases m <;> rfl
@[simp] theorem setChan_rxState (s : State) (m : Motor) (c : Channel) : (s.setChan m c).rxState = s.rxState := by
  cases m <;> rfl
@[simp] theorem setChan_rxMotor (s : State) (m : Motor) (c : Channel) : (s.setChan m c).rxMotor = s.rxMotor := by
  cases m <;> rfl
@[simp] theorem setChan_rxHigh6 (s : State) (m : Motor) (c : Channel) : (s.setChan m c).rxHigh6 = s.rxHigh6 := by
  cases m <;> rfl
@[simp] theorem setChan_rxByte (s : State) (m : Motor) (c : Channel) : (s.setChan m c).rxByte = s.rxByte := by
  cases m <;> rfl
@[simp] theorem setChan_cmdFlag (s : State) (m : Motor) (c : Channel) : (s.setChan m c).cmdFlag = s.cmdFlag := by
  cases m <;> rfl
@[simp] theorem setChan_seqPc (s : State) (m : Motor) (c : Channel) : (s.setChan m c).seqPc = s.seqPc := by
  cases m <;> rfl
@[simp] theorem setChan_hit (s : State) (m : Motor) (c : Channel) : (s.setChan m c).hit = s.hit := by cases m <;> rfl
@[simp] theorem setChan_out (s : State) (m : Motor) (c : Channel) : (s.setChan m c).out = s.out := by cases m <;> rfl
@[simp] theorem setChan_agenda (s : State) (m : Motor) (c : Channel) : (s.setChan m c).agenda = s.agenda := by
  cases m <;> rfl
@[simp] theorem setChan_draws (s : State) (m : Motor) (c : Channel) : (s.setChan m c).draws = s.draws := by
  cases m <;> rfl

/-! ### begin -/

@[simp] theorem begin_out (s : State) : s.begin.out = [] := rfl
@[simp] theorem begin_cfg (s : State) : s.begin.cfg = s.cfg := rfl
@[simp] theorem begin_ch0 (s : State) : s.begin.ch0 = s.ch0 := rfl
@[simp] theorem begin_ch1 (s : State) : s.begin.ch1 = s.ch1 := rfl
@[simp] theorem begin_chan (s : State) (m : Motor) : s.begin.chan m = s.chan m := by cases m <;> rfl
@[simp] theorem begin_rxState (s : State) : s.begin.rxState = s.rxState := rfl
@[simp] theorem begin_rxMotor (s : State) : s.begin.rxMotor = s.rxMotor := rfl
@[simp] theorem begin_rxHigh6 (s : State) : s.begin.rxHigh6 = s.rxHigh6 := rfl
@[simp] theorem begin_rxByte (s : State) : s.begin.rxByte = s.rxByte := rfl
@[simp] theorem begin_cmdFlag (s : State) : s.begin.cmdFlag = s.cmdFlag := rfl
@[simp] theorem begin_seqPc (s : State) : s.begin.seqPc = s.seqPc := rfl
@[simp] theorem begin_hit (s : State) : s.begin.hit = s.hit := rfl
@[simp] theorem begin_agenda (s : State) : s.begin.agenda = s.agenda := rfl
@[simp] theorem begin_draws (s : State) : s.begin.draws = s.draws := rfl

/-! ### push -/

@[simp] theorem push_out (s : State) (o : Output) : (s.push o).out = s.out ++ [o] := rfl
@[simp] theorem push_cfg (s : State) (o : Output) : (s.push o).cfg = s.cfg := rfl
@[simp] theorem push_ch0 (s : State) (o : Output) : (s.push o).ch0 = s.ch0 := rfl
@[simp] theorem push_ch1 (s : State) (o : Output) : (s.push o).ch1 = s.ch1 := rfl
@[simp] theorem push_chan (s : State) (o : Output) (m : Motor) : (s.push o).chan m = s.chan m := by cases m <;> rfl
@[simp] theorem push_rxState (s : State) (o : Output) : (s.push o).rxState = s.rxState := rfl
@[simp] theorem push_rxMotor (s : State) (o : Output) : (s.push o).rxMotor = s.rxMotor := rfl
@[simp] theorem push_rxHigh6 (s : State) (o : Output) : (s.push o).rxHigh6 = s.rxHigh6 := rfl
@[simp] theorem push_rxByte (s : State) (o : Output) : (s.push o).rxByte = s.rxByte := rfl
@[simp] theorem push_cmdFlag (s : State) (o : Output) : (s.push o).cmdFlag = s.cmdFlag := rfl
@[simp] theorem push_seqPc (s : State) (o : Output) : (s.push o).seqPc = s.seqPc := rfl
@[simp] theorem push_hit (s : State) (o : Output) : (s.push o).hit = s.hit := rfl
@[simp] theorem push_agenda (s : State) (o : Output) : (s.push o).agenda = s.agenda := rfl
@[simp] theorem push_draws (s : State) (o : Output) : (s.push o).draws = s.draws := rfl

/-! ### The read of ENC_RESYNC -/

theorem encResyncOut_off (s : State) (m : Motor) (h : s.cfg.encoderFaultReport = .off) : encResyncOut s m = none := by
  simp [encResyncOut, h]

theorem encResyncOut_stickyFlag (s : State) (m : Motor) (h : s.cfg.encoderFaultReport = .stickyFlag) :
    encResyncOut s m = some (s.chan m).encResync := by
  simp [encResyncOut, h]

end Sys2Proof.Machine
end

