-- ==== Sys2Proof/Laws/Ops.lean ====
section
/-! SUPPORT. One lemma for each shared operation that says what it can do, so that no proof unfolds the operation. -/

namespace Sys2Proof.Machine

/-! ### The model's own fields

`State.over` puts outputs before the ones a state has, and sets the agenda and the counter.  Every shared operation
commutes with it: it neither reads nor removes an output, and neither reads nor writes the agenda and the counter. -/

/-- `s` with earlier outputs, another agenda and another counter. -/
def State.over (s : State) (earlier : List Output) (agenda : List Delivery) (draws : Nat) : State :=
  { s with out := earlier ++ s.out, agenda := agenda, draws := draws }

variable (s : State) (o : List Output) (a : List Delivery) (n : Nat)

@[simp] theorem over_cfg : (s.over o a n).cfg = s.cfg := rfl
@[simp] theorem over_ch0 : (s.over o a n).ch0 = s.ch0 := rfl
@[simp] theorem over_ch1 : (s.over o a n).ch1 = s.ch1 := rfl
@[simp] theorem over_chan (m : Motor) : (s.over o a n).chan m = s.chan m := by cases m <;> rfl
@[simp] theorem over_rxState : (s.over o a n).rxState = s.rxState := rfl
@[simp] theorem over_rxMotor : (s.over o a n).rxMotor = s.rxMotor := rfl
@[simp] theorem over_rxHigh6 : (s.over o a n).rxHigh6 = s.rxHigh6 := rfl
@[simp] theorem over_rxByte : (s.over o a n).rxByte = s.rxByte := rfl
@[simp] theorem over_cmdFlag : (s.over o a n).cmdFlag = s.cmdFlag := rfl
@[simp] theorem over_seqPc : (s.over o a n).seqPc = s.seqPc := rfl
@[simp] theorem over_hit : (s.over o a n).hit = s.hit := rfl
@[simp] theorem over_out : (s.over o a n).out = o ++ s.out := rfl

theorem over_nil_self : s.over [] s.agenda s.draws = s := rfl

theorem setChan_over (m : Motor) (c : Channel) : (s.over o a n).setChan m c = (s.setChan m c).over o a n := by
  cases m <;> rfl

theorem push_over (x : Output) : (s.over o a n).push x = (s.push x).over o a n := by
  simp [State.push, State.over, List.append_assoc]

theorem raisePin_over (m : Motor) (b b' : Bit) : raisePin m b b' (s.over o a n) = (raisePin m b b' s).over o a n := by
  cases m <;> rfl

theorem raiseByte_over (b : Byte) : raiseByte b (s.over o a n) = (raiseByte b s).over o a n := rfl

theorem emitCommand_over (id : Bit) (v : Word) :
    emitCommand id v (s.over o a n) = (emitCommand id v s).over o a n := by
  simp [emitCommand, setChan_over, push_over]

theorem decoderRun_over (m : Motor) (key : BitVec 4) :
    decoderRun m key (s.over o a n) = (decoderRun m key s).over o a n := by
  simp only [decoderRun, over_cfg, over_chan, setChan_over]
  split
  · exact push_over _ _ _ _ _
  · rfl

theorem sampleKey_over (m : Motor) : sampleKey m (s.over o a n) = sampleKey m s := by
  simp [sampleKey, pinRead]

theorem sampleRun_over (m : Motor) : sampleRun m (s.over o a n) = (sampleRun m s).over o a n := by
  rw [sampleRun, sampleKey_over, decoderRun_over, sampleRun]

theorem packRun_over (d : Word) (id : Bit) : packRun d id (s.over o a n) = (packRun d id s).over o a n := by
  simp only [packRun, over_cfg, push_over]
  split <;> rfl

theorem receiveMsw_over (id : Bit) (h : BitVec 6) : receiveMsw id h (s.over o a n) = (receiveMsw id h s).over o a n :=
  rfl

theorem receiveLsw_over (l : BitVec 7) : receiveLsw l (s.over o a n) = (receiveLsw l s).over o a n := by
  simp only [receiveLsw, over_rxState, over_rxMotor, over_rxHigh6, over_cfg]
  split
  · exact emitCommand_over { s with rxState := .awaitingMsw } o a n _ _
  · rfl

theorem receiveRun_over (b : Byte) : receiveRun b (s.over o a n) = (receiveRun b s).over o a n := by
  simp only [receiveRun, receiveMsw_over, receiveLsw_over]
  split <;> rfl

theorem servoRun_over (m : Motor) : servoRun m (s.over o a n) = (servoRun m s).over o a n := by
  simp [servoRun, setChan_over]

theorem microStepRun_over (u : MicroStep) : microStepRun u (s.over o a n) = (microStepRun u s).over o a n := by
  have keep (c : Bool) (f : State → State) (hf : f (s.over o a n) = (f s).over o a n) :
      (if c then f (s.over o a n) else s.over o a n) = (if c then f s else s).over o a n := by
    cases c
    · rfl
    · exact hf
  cases u with
  | testEnc m => cases m <;> rfl
  | clearEnc m =>
    exact keep s.hit (fun t => t.setChan m { t.chan m with encFlag := false }) (by cases m <;> rfl)
  | updateEnc m => exact keep s.hit (sampleRun m) (sampleRun_over s o a n m)
  | testCmd => rfl
  | clearCmd => exact keep s.hit (fun t => { t with cmdFlag := false }) rfl
  | updateCmd => exact keep s.hit (receiveRun s.rxByte) (receiveRun_over s o a n s.rxByte)
  | servo m => exact servoRun_over s o a n m

theorem ustepRun_over : ustepRun (s.over o a n) = (ustepRun s).over o a n := by
  simp only [ustepRun, over_seqPc, microStepRun_over]
  rfl

theorem ustepsRun_over (k : Nat) : ustepsRun k (s.over o a n) = (ustepsRun k s).over o a n := by
  induction k generalizing s with
  | zero => rfl
  | succ k ih => simp only [ustepsRun, ustepRun_over, ih]

theorem gapMoveRun_over (g : GapMove) : gapMoveRun g (s.over o a n) = (gapMoveRun g s).over o a n := by
  cases g with
  | ustep => exact ustepRun_over s o a n
  | pin m b b' => exact raisePin_over s o a n m b b'

theorem gapRun_over (gs : List GapMove) : gapRun gs (s.over o a n) = (gapRun gs s).over o a n := by
  induction gs generalizing s with
  | nil => rfl
  | cons g gs ih => simp only [gapRun, gapMoveRun_over, ih]

theorem construct_over (a0 b0 a1 b1 : Bit) (k : Nat) :
    construct a0 b0 a1 b1 k (s.over o a n) = (construct a0 b0 a1 b1 k s).over o a (k + 1) := rfl

/-! ### What each operation does to the named registers -/

/-- The channel that a decoder step leaves. -/
theorem decoderRun_chan (m : Motor) (key : BitVec 4) :
    (decoderRun m key s).chan m = decoderStep s.cfg.encoderFaultReport key (s.chan m) := by
  simp only [decoderRun]
  split <;> simp

/-- A decoder step leaves everything but its channel and the outputs. -/
theorem decoderRun_eq (m : Motor) (key : BitVec 4) :
    decoderRun m key s =
      { s.setChan m (decoderStep s.cfg.encoderFaultReport key (s.chan m)) with
        out := s.out ++ if resyncReported s.cfg.encoderFaultReport key then [.status (.encoderResync m)] else [] } := by
  cases m <;> simp only [decoderRun] <;> split <;> simp_all [State.push]

/-- A servo step writes its channel alone. -/
theorem servoRun_chan (m : Motor) :
    (servoRun m s).chan m = servoDrive (servoError s.cfg.errArith (s.chan m).target (s.chan m).qpos) (s.chan m) := by
  simp [servoRun]

/-- A servo step leaves the other motor's channel. -/
theorem servoRun_chan_other {m n : Motor} (h : n ≠ m) : (servoRun m s).chan n = s.chan n :=
  chan_setChan_other s _ h

/-- A servo step keeps TARGET, QPOS, QPHASE, the pins and the sticky flags. -/
theorem servoDrive_eq (err : Int) (c : Channel) :
    ∃ d u t, servoDrive err c = { c with dir := d, duty := u, atTarget := t } := by
  unfold servoDrive
  split
  · exact ⟨_, _, _, rfl⟩
  · split
    · exact ⟨_, _, _, rfl⟩
    · exact ⟨c.dir, _, _, rfl⟩

/-- An LSW in AwaitingLSW: RX_STATE, TARGET of the captured motor, and the emission. -/
theorem receiveLsw_completes (l : BitVec 7) (h : s.rxState = .awaitingLsw) :
    receiveLsw l s =
      { s.setChan (motorOfBit s.rxMotor)
          { s.chan (motorOfBit s.rxMotor) with target := assemble s.cfg.unpackSignMode s.rxHigh6 l } with
        rxState := .awaitingMsw
        out := s.out ++ [.emit s.rxMotor (assemble s.cfg.unpackSignMode s.rxHigh6 l)] } := by
  simp only [receiveLsw, h, emitCommand]
  generalize motorOfBit s.rxMotor = m
  cases m <;> rfl

/-- An LSW in AwaitingMSW is discarded. -/
theorem receiveLsw_discards (l : BitVec 7) (h : s.rxState = .awaitingMsw) : receiveLsw l s = s := by
  simp only [receiveLsw, h]

theorem receiveRun_msw (b : Byte) (h : isMsw b = true) :
    receiveRun b s = { s with rxMotor := mswId b, rxHigh6 := mswHigh6 b, rxState := .awaitingLsw } := by
  simp only [receiveRun, h, if_true, receiveMsw]

theorem receiveRun_lsw (b : Byte) (h : isMsw b = false) : receiveRun b s = receiveLsw (lswLow7 b) s := by
  simp [receiveRun, h]

/-- The three cases of a receiver step: an MSW, an LSW that completes a pair, a discarded LSW. -/
theorem receiveRun_cases (b : Byte) :
    (isMsw b = true ∧
      receiveRun b s = { s with rxMotor := mswId b, rxHigh6 := mswHigh6 b, rxState := .awaitingLsw }) ∨
    (isMsw b = false ∧ s.rxState = .awaitingLsw ∧
      receiveRun b s =
        { s.setChan (motorOfBit s.rxMotor)
            { s.chan (motorOfBit s.rxMotor) with
              target := assemble s.cfg.unpackSignMode s.rxHigh6 (lswLow7 b) } with
          rxState := .awaitingMsw
          out := s.out ++ [.emit s.rxMotor (assemble s.cfg.unpackSignMode s.rxHigh6 (lswLow7 b))] }) ∨
    (isMsw b = false ∧ s.rxState = .awaitingMsw ∧ receiveRun b s = s) := by
  cases hb : isMsw b
  · rw [receiveRun_lsw s b hb]
    cases hs : s.rxState
    · exact .inr (.inr ⟨rfl, rfl, receiveLsw_discards s _ hs⟩)
    · exact .inr (.inl ⟨rfl, rfl, receiveLsw_completes s _ hs⟩)
  · exact .inl ⟨rfl, receiveRun_msw s b hb⟩

/-- A micro-step leaves SEQ_PC. -/
theorem microStepRun_seqPc (u : MicroStep) : (microStepRun u s).seqPc = s.seqPc := by
  cases u <;> simp only [microStepRun]
  all_goals (try split)
  all_goals first
    | rfl
    | simp [servoRun]
    | (rcases receiveRun_cases s s.rxByte with ⟨-, h⟩ | ⟨-, -, h⟩ | ⟨-, -, h⟩ <;>
        simp [h])
    | simp [sampleRun, decoderRun_eq]

/-- USTEP moves SEQ_PC on, modulo eleven. -/
theorem ustepRun_seqPc : (ustepRun s).seqPc = s.seqPc + 1 := rfl

/-- Every shared operation leaves the configuration. -/
theorem microStepRun_cfg (u : MicroStep) : (microStepRun u s).cfg = s.cfg := by
  cases u <;> simp only [microStepRun]
  all_goals (try split)
  all_goals first
    | rfl
    | simp [servoRun]
    | (rcases receiveRun_cases s s.rxByte with ⟨-, h⟩ | ⟨-, -, h⟩ | ⟨-, -, h⟩ <;>
        simp [h])
    | simp [sampleRun, decoderRun_eq]

theorem ustepRun_cfg : (ustepRun s).cfg = s.cfg := microStepRun_cfg s _

theorem ustepsRun_cfg (k : Nat) : (ustepsRun k s).cfg = s.cfg := by
  induction k generalizing s with
  | zero => rfl
  | succ k ih => rw [ustepsRun, ih, ustepRun_cfg]

theorem gapRun_cfg (gs : List GapMove) : (gapRun gs s).cfg = s.cfg := by
  induction gs generalizing s with
  | nil => rfl
  | cons g gs ih =>
    rw [gapRun, ih]
    cases g with
    | ustep => exact ustepRun_cfg s
    | pin m b b' => exact setChan_cfg s m _

theorem packRun_eq (d : Word) (id : Bit) :
    packRun d id s =
      { s with
        out := s.out ++ .packed (packMsw s.cfg.ovfPolicy d id) (packLsw s.cfg.ovfPolicy d) (packOverflow d) ::
          if packOverflow d then [.status (.commandOverflow d)] else [] } := by
  unfold packRun
  cases h : packOverflow d <;> simp [State.push]

end Sys2Proof.Machine
end

