-- ==== Sys2Proof/Laws/Sequencer.lean ====
section
/-! SUPPORT. What USTEP does at each position, the services' frames, and the laws of `runOps`. -/

namespace Sys2Proof.Machine

variable (s : State)

/-! ### The services neither read nor write the sequencer's registers -/

/-- A receiver step neither reads nor writes RX_BYTE, CMD_FLAG, SEQ_PC and HIT. -/
theorem receiveRun_frame (b latch : Byte) (flag hit : Bool) (pc : Fin 11) :
    receiveRun b { s with rxByte := latch, cmdFlag := flag, seqPc := pc, hit := hit } =
      { receiveRun b s with rxByte := latch, cmdFlag := flag, seqPc := pc, hit := hit } := by
  rcases s with ⟨cfg, c0, c1, rxState, id, hi, rb, cf, spc, ht, out, agenda, draws⟩
  cases hb : isMsw b <;> cases rxState <;>
    simp [receiveRun, hb, receiveMsw, receiveLsw, emitCommand, State.push]
  cases motorOfBit id <;> simp

/-- A sample neither reads nor writes CMD_FLAG, SEQ_PC, HIT and the receiver's registers. -/
theorem sampleRun_frame (m : Motor) (rx : RxState) (id : Bit) (hi : BitVec 6) (latch : Byte) (flag hit : Bool)
    (pc : Fin 11) :
    sampleRun m
        { s with
          rxState := rx, rxMotor := id, rxHigh6 := hi, rxByte := latch, cmdFlag := flag, seqPc := pc, hit := hit } =
      { sampleRun m s with
        rxState := rx, rxMotor := id, rxHigh6 := hi, rxByte := latch, cmdFlag := flag, seqPc := pc, hit := hit } := by
  cases m <;> simp [sampleRun, sampleKey, decoderRun_eq, pinRead]

/-! ### USTEP by position -/

theorem ustepRun_et0 (h : s.seqPc = 0) : ustepRun s = { s with hit := s.ch0.encFlag, seqPc := 1 } := by
  simp [ustepRun, h, microStepAt, microStepRun]

theorem ustepRun_ec0 (h : s.seqPc = 1) :
    ustepRun s = { s with ch0 := { s.ch0 with encFlag := s.ch0.encFlag && !s.hit }, seqPc := 2 } := by
  rcases s with ⟨_, _, _, _, _, _, _, _, _, hit⟩
  cases hit <;> simp_all [ustepRun, microStepAt, microStepRun]

theorem ustepRun_eu0 (h : s.seqPc = 2) :
    ustepRun s = { if s.hit then sampleRun .m0 s else s with seqPc := 3 } := by
  simp [ustepRun, h, microStepAt, microStepRun]

theorem ustepRun_et1 (h : s.seqPc = 3) : ustepRun s = { s with hit := s.ch1.encFlag, seqPc := 4 } := by
  simp [ustepRun, h, microStepAt, microStepRun]

theorem ustepRun_ec1 (h : s.seqPc = 4) :
    ustepRun s = { s with ch1 := { s.ch1 with encFlag := s.ch1.encFlag && !s.hit }, seqPc := 5 } := by
  rcases s with ⟨_, _, _, _, _, _, _, _, _, hit⟩
  cases hit <;> simp_all [ustepRun, microStepAt, microStepRun]

theorem ustepRun_eu1 (h : s.seqPc = 5) :
    ustepRun s = { if s.hit then sampleRun .m1 s else s with seqPc := 6 } := by
  simp [ustepRun, h, microStepAt, microStepRun]

theorem ustepRun_ct (h : s.seqPc = 6) : ustepRun s = { s with hit := s.cmdFlag, seqPc := 7 } := by
  simp [ustepRun, h, microStepAt, microStepRun]

theorem ustepRun_cc (h : s.seqPc = 7) : ustepRun s = { s with cmdFlag := s.cmdFlag && !s.hit, seqPc := 8 } := by
  rcases s with ⟨_, _, _, _, _, _, _, _, _, hit⟩
  cases hit <;> simp_all [ustepRun, microStepAt, microStepRun]

theorem ustepRun_cu (h : s.seqPc = 8) :
    ustepRun s = { if s.hit then receiveRun s.rxByte s else s with seqPc := 9 } := by
  simp [ustepRun, h, microStepAt, microStepRun]

theorem ustepRun_sv0 (h : s.seqPc = 9) : ustepRun s = { servoRun .m0 s with seqPc := 10 } := by
  simp [ustepRun, h, microStepAt, microStepRun]

theorem ustepRun_sv1 (h : s.seqPc = 10) : ustepRun s = { servoRun .m1 s with seqPc := 0 } := by
  simp [ustepRun, h, microStepAt, microStepRun]

/-! ### The model's own fields and SEQ_PC over several micro-steps -/

/-- Micro-steps leave the agenda. -/
theorem ustepsRun_agenda (k : Nat) : (ustepsRun k s).agenda = s.agenda := by
  rw [← over_nil_self s, ustepsRun_over]
  rfl

/-- Micro-steps draw nothing. -/
theorem ustepsRun_draws (k : Nat) : (ustepsRun k s).draws = s.draws := by
  rw [← over_nil_self s, ustepsRun_over]
  rfl

/-- `k` micro-steps move SEQ_PC by `k`, modulo eleven. -/
theorem ustepsRun_seqPc (k : Nat) : (ustepsRun k s).seqPc = s.seqPc + Fin.ofNat 11 k := by
  induction k generalizing s with
  | zero => simp [ustepsRun]
  | succ k ih =>
    rw [ustepsRun, ih, ustepRun_seqPc]
    apply Fin.ext
    simp [Fin.val_add, Fin.ofNat]
    omega

/-! ### The services of a pass -/

/-- Micro-steps add up. -/
theorem ustepsRun_add (j k : Nat) : ustepsRun (j + k) s = ustepsRun k (ustepsRun j s) := by
  induction j generalizing s with
  | zero => simp [ustepsRun]
  | succ j ih => rw [Nat.succ_add, ustepsRun, ih, ustepsRun]

/-- What an encoder service leaves of a channel: the pins and the servo's registers. -/
def Channel.SameServo (c c' : Channel) : Prop :=
  c'.encA = c.encA ∧ c'.encB = c.encB ∧ c'.target = c.target ∧ c'.dir = c.dir ∧ c'.duty = c.duty ∧
    c'.atTarget = c.atTarget

/-- A sample writes its motor's decoder registers and the outputs. -/
theorem sampleRun_writes (m : Motor) :
    ∃ (c : Channel) (o : List Output),
      sampleRun m s = { s.setChan m c with out := o } ∧ (s.chan m).SameServo c ∧ c.encFlag = (s.chan m).encFlag := by
  rw [sampleRun, decoderRun_eq]
  exact ⟨_, _, rfl, ⟨rfl, rfl, rfl, rfl, rfl, rfl⟩, rfl⟩

/-- The three micro-steps of motor 0's encoder service write its decoder, its flag, HIT and the outputs. -/
theorem encService_m0 (h : s.seqPc = 0) :
    ∃ (c : Channel) (hit : Bool) (o : List Output),
      ustepsRun 3 s = { s with ch0 := c, hit := hit, out := o, seqPc := 3 } ∧ s.ch0.SameServo c := by
  rcases s with ⟨cfg, ⟨a, b, q, p, t, d, u, at0, flag, r⟩, c1, rx, id, hi, rb, cf, pc, hit, out, agenda, draws⟩
  cases h
  cases flag
  · exact ⟨_, _, _, rfl, rfl, rfl, rfl, rfl, rfl, rfl⟩
  · obtain ⟨c, o, e, same, -⟩ := sampleRun_writes
      ⟨cfg, ⟨a, b, q, p, t, d, u, at0, false, r⟩, c1, rx, id, hi, rb, cf, 2, true, out, agenda, draws⟩ .m0
    exact ⟨c, true, o, congrArg (fun x : State => { x with seqPc := 3 }) e, same⟩

/-- The three micro-steps of motor 1's encoder service. -/
theorem encService_m1 (h : s.seqPc = 3) :
    ∃ (c : Channel) (hit : Bool) (o : List Output),
      ustepsRun 3 s = { s with ch1 := c, hit := hit, out := o, seqPc := 6 } ∧ s.ch1.SameServo c := by
  rcases s with ⟨cfg, c0, ⟨a, b, q, p, t, d, u, at0, flag, r⟩, rx, id, hi, rb, cf, pc, hit, out, agenda, draws⟩
  cases h
  cases flag
  · exact ⟨_, _, _, rfl, rfl, rfl, rfl, rfl, rfl, rfl⟩
  · obtain ⟨c, o, e, same, -⟩ := sampleRun_writes
      ⟨cfg, c0, ⟨a, b, q, p, t, d, u, at0, false, r⟩, rx, id, hi, rb, cf, 5, true, out, agenda, draws⟩ .m1
    exact ⟨c, true, o, congrArg (fun x : State => { x with seqPc := 6 }) e, same⟩

/-- The command service with a pending byte: one receiver step on the latch. -/
theorem cmdService_pending (h : s.seqPc = 6) (hf : s.cmdFlag = true) :
    ustepsRun 3 s = { receiveRun s.rxByte s with cmdFlag := false, hit := true, seqPc := 9 } := by
  rcases s with ⟨cfg, c0, c1, rx, id, hi, rb, cf, pc, hit, out, agenda, draws⟩
  cases h
  cases hf
  generalize hs : State.mk cfg c0 c1 rx id hi rb true 6 hit out agenda draws = t
  have key := receiveRun_frame t rb rb false true 8
  have latch := congrArg State.rxByte (receiveRun_frame t rb rb true hit 6)
  subst hs
  exact (congrArg (fun x : State => { x with seqPc := 9 }) key).trans
    (congrArg (fun y : Byte =>
      { receiveRun rb ⟨cfg, c0, c1, rx, id, hi, rb, true, 6, hit, out, agenda, draws⟩ with
        rxByte := y, cmdFlag := false, hit := true, seqPc := 9 }) latch.symm)

/-- The command service without a pending byte. -/
theorem cmdService_idle (h : s.seqPc = 6) (hf : s.cmdFlag = false) :
    ustepsRun 3 s = { s with cmdFlag := false, hit := false, seqPc := 9 } := by
  simp only [ustepsRun, ustepRun_ct s h, hf]
  rfl

/-- The servo micro-steps end the pass. -/
theorem servoService (h : s.seqPc = 9) :
    ustepsRun 2 s = { servoRun .m1 { servoRun .m0 s with seqPc := 10 } with seqPc := 0 } := by
  simp only [ustepsRun, ustepRun_sv0 s h]
  rw [ustepRun_sv1 _ rfl]

/-- A relation that every micro-step keeps and that composes holds over any number of them. -/
theorem ustepsRun_rel {R : State → State → Prop} (refl : ∀ x, R x x) (trans : ∀ {x y z}, R x y → R y z → R x z)
    (micro : ∀ x, R x (ustepRun x)) (k : Nat) : R s (ustepsRun k s) := by
  induction k generalizing s with
  | zero => exact refl s
  | succ k ih => exact trans (micro s) (ih _)

/-- The same over the moves inside a gap, which are micro-steps and pin changes. -/
theorem gapRun_rel {R : State → State → Prop} (refl : ∀ x, R x x) (trans : ∀ {x y z}, R x y → R y z → R x z)
    (micro : ∀ x, R x (ustepRun x)) (pin : ∀ m a b x, R x (raisePin m a b x)) (gs : List GapMove) :
    R s (gapRun gs s) := by
  induction gs generalizing s with
  | nil => exact refl s
  | cons g gs ih =>
    refine trans ?_ (ih _)
    cases g with
    | ustep => exact micro s
    | pin m a b => exact pin m a b s

/-! ### Runs -/

/-- A run that completes goes on with the operations after it. -/
theorem runOps_append (is js : List Instr) {t : State} (h : runOps is s = .next t) :
    runOps (is ++ js) s = runOps js t := by
  induction is generalizing s with
  | nil =>
    cases h
    rfl
  | cons i is ih =>
    simp only [runOps, List.cons_append] at h ⊢
    split at h
    · exact ih _ h
    · cases h
    · cases h

/-- One operation, then the rest. -/
theorem runOps_cons (i : Instr) (is : List Instr) {t : State} (h : exec i s = .next t) :
    runOps (i :: is) s = runOps is t := by
  simp only [runOps, h]

/-- The outputs of an earlier step do not change what micro-steps do, the outputs apart. -/
theorem ustepsRun_begin (k : Nat) (o : List Output) :
    { ustepsRun k s.begin with out := o } = { ustepsRun k s with out := o } := by
  have key := ustepsRun_over s.begin s.out s.agenda s.draws k
  rw [show s.begin.over s.out s.agenda s.draws = s by simp [State.begin, State.over]] at key
  rw [key, State.over, ← show (ustepsRun k s.begin).agenda = s.agenda from ustepsRun_agenda _ _,
    ← show (ustepsRun k s.begin).draws = s.draws from ustepsRun_draws _ _]

/-- Micro-steps written as operations: the state of `ustepsRun`, the outputs apart. -/
theorem runOps_usteps (k : Nat) :
    ∃ o, runOps (List.replicate (k + 1) .ustep) s = .next { ustepsRun (k + 1) s.begin with out := o } := by
  induction k generalizing s with
  | zero => exact ⟨_, rfl⟩
  | succ k ih =>
    obtain ⟨o, h⟩ := ih (ustepRun s.begin)
    rw [ustepsRun_begin] at h
    exact ⟨o, (runOps_cons s .ustep _ rfl).trans h⟩

end Sys2Proof.Machine
end

