-- ==== Sys2Proof/Laws/Exec.lean ====
section
/-! SUPPORT. The agenda is step's alone: no operation reads or writes it. -/

namespace Sys2Proof.Machine

/-- A change of the state that a completed operation leaves. -/
def mapNext (f : State → State) : Host.Outcome State Fault Refusal → Host.Outcome State Fault Refusal
  | .next t => .next (f t)
  | .fault r => .fault r
  | .refused r => .refused r

/-- The moves of a gap leave the counter of draws. -/
theorem gapRun_draws (gs : List GapMove) (s : State) : (gapRun gs s).draws = s.draws := by
  rw [← over_nil_self s, gapRun_over]
  rfl

/-- A shared operation that leaves the model's own fields alone runs under another agenda as it runs under this one. -/
theorem begin_agenda_of_over {f : State → State} (hf : ∀ x o a n, f (State.over x o a n) = (f x).over o a n) (s : State)
    (a : List Delivery) : f ({ s with agenda := a } : State).begin = { f s.begin with agenda := a } := by
  have other : ({ s with agenda := a } : State).begin = s.begin.over [] a s.draws := rfl
  have draws : (f s.begin).draws = s.draws := by
    rw [← over_nil_self s.begin, hf]
    rfl
  rw [other, hf, State.over, ← draws]
  rfl

/-- `CMD.SEND` runs under another agenda as it runs under this one. -/
theorem sendRun_agenda (gap : List GapMove) (d : Word) (id : Bit) (k : Nat) (s : State) (a : List Delivery) :
    sendRun gap d id { s with agenda := a, draws := k } = { sendRun gap d id { s with draws := k } with agenda := a } := by
  have other : ({ s with agenda := a, draws := k } : State) = ({ s with draws := k } : State).over [] a k := rfl
  simp only [sendRun, other, packRun_over, raiseByte_over, gapRun_over]
  simp only [State.over, raiseByte, gapRun_draws, packRun_eq]
  rfl

/-- An operation runs under another agenda as it runs under this one, and keeps it. -/
theorem exec_agenda (i : Instr) (s : State) (a : List Delivery) :
    exec i { s with agenda := a } = mapNext (fun t => { t with agenda := a }) (exec i s) := by
  have lift {f : State → State} (hf : ∀ x o b n, f (State.over x o b n) = (f x).over o b n) :
      Host.Outcome.next (f ({ s with agenda := a } : State).begin) =
        mapNext (fun t => { t with agenda := a }) (.next (f s.begin)) :=
    congrArg Host.Outcome.next (begin_agenda_of_over hf s a)
  cases i
  case tlmEnc v =>
    simp only [exec, execTlmEnc]
    split <;> rfl
  case tlmEncf =>
    simp only [exec, execTlmEncf]
    split <;> rfl
  case tlmDecf =>
    simp only [exec, execTlmDecf]
    split <;> rfl
  case evPins m b b' =>
    have pins : pinRead { s with agenda := a } m = pinRead s m := by cases m <;> rfl
    simp only [exec, execEvPins, pins]
    by_cases h : pinRead s m = (b, b')
    · rw [if_pos h, if_pos h]
      rfl
    · rw [if_neg h, if_neg h]
      exact lift fun x o b'' n => raisePin_over x o b'' n m _ _
  case cmdSend d id => exact congrArg Host.Outcome.next (sendRun_agenda _ d id (s.draws + 1) s.begin a)
  case pass => exact lift fun x o b n => ustepsRun_over x o b n _
  case ustep => exact lift ustepRun_over
  case cmdRx b => exact lift fun x o b' n => receiveRun_over x o b' n b
  case cmdLsw l => exact lift fun x o b n => receiveLsw_over x o b n l
  case cmdPack d id => exact lift fun x o b n => packRun_over x o b n d id
  case servoStep m => exact lift fun x o b n => servoRun_over x o b n m
  case evPin m b b' => exact lift fun x o b'' n => raisePin_over x o b'' n m b b'
  case qdecSample m => exact lift fun x o b n => sampleRun_over x o b n m
  case reset | cmdMsw | evRxbyte | tlmDec | tlmZero | tlmLow | tlmHigh => rfl
  all_goals exact lift fun x o b n => decoderRun_over x o b n _ _

/-- An operation that completes keeps the agenda. -/
theorem exec_keeps_agenda {i : Instr} {s t : State} (h : exec i s = .next t) : t.agenda = s.agenda := by
  have key := exec_agenda i s s.agenda
  rw [show ({ s with agenda := s.agenda } : State) = s from rfl, h] at key
  simp only [mapNext, Host.Outcome.next.injEq] at key
  rw [key]

end Sys2Proof.Machine
end

