-- ==== Sys2Proof/Laws/Environment.lean ====
section
/-! SUPPORT. The moves of a motor node's run: each is the operation that it sends, its delivery decodes to it, and step
runs it. -/

namespace Sys2Proof.Machine

/-! ### What a move does -/

@[simp] theorem pin_run (m : Motor) (a b : Bit) (s : State) : (EnvMove.pin m a b).run s = raisePin m a b s.begin := rfl
@[simp] theorem rxByte_run (b : Byte) (s : State) : (EnvMove.rxByte b).run s = raiseByte b s.begin := rfl
@[simp] theorem read_run (p : OutputPort) (s : State) : (EnvMove.read p).run s = s := rfl
@[simp] theorem env_run (e : EnvMove) (s : State) : (NodeMove.env e).run s = e.run s := rfl
@[simp] theorem ustep_run (s : State) : NodeMove.ustep.run s = ustepRun s.begin := rfl

/-- A move that sends an operation does what the operation does. -/
theorem exec_of_sends {n : NodeMove} {i : Instr} (h : n.sends = some i) (s : State) : exec i s = .next (n.run s) := by
  rcases n with ((_ | _ | _) | _) <;> cases h <;> rfl

/-- A move that sends nothing is a read, and does nothing. -/
theorem run_of_sends_none {n : NodeMove} (h : n.sends = none) (s : State) : n.run s = s := by
  rcases n with ((_ | _ | _) | _) <;> first | rfl | cases h

/-- A move keeps the agenda. -/
theorem nodeMove_keeps_agenda (n : NodeMove) (s : State) : (n.run s).agenda = s.agenda := by
  cases h : n.sends with
  | none => rw [run_of_sends_none h]
  | some i => exact exec_keeps_agenda (exec_of_sends h s)

/-- A move runs under another agenda as it runs under this one. -/
theorem nodeMove_agenda (n : NodeMove) (s : State) (a : List Delivery) :
    n.run { s with agenda := a } = { n.run s with agenda := a } := by
  cases h : n.sends with
  | none => simp only [run_of_sends_none h]
  | some i =>
    have key := exec_agenda i s a
    rw [exec_of_sends h, exec_of_sends h, mapNext, Host.Outcome.next.injEq] at key
    exact key

/-! ### Operations and deliveries of a run -/

/-- The operations of a run are those that a move sends. -/
theorem nodeMoveOf_iff (i : Instr) (n : NodeMove) : nodeMoveOf i = some n ↔ n.sends = some i := by
  rcases n with ((_ | _ | _) | _) <;> cases i <;> constructor <;> intro h <;> cases h <;> rfl

/-- The delivery of a move decodes to its operation. -/
theorem decode_encode_of_sends {n : NodeMove} {i : Instr} (h : n.sends = some i) : decode (encode i) = .ok i := by
  rcases n with ((_ | _ | _) | _) <;> cases h <;>
    simp [encode, decode, decodePins, decodeOne, decodeNone, motorOfByte_motorByte, bitOfByte_bitByte]

/-- So the delivery of a move is that move. -/
theorem nodeMoveOfDelivery_encode {n : NodeMove} {i : Instr} (h : n.sends = some i) :
    nodeMoveOfDelivery (encode i) = some n := by
  rw [nodeMoveOfDelivery, decode_encode_of_sends h]
  exact (nodeMoveOf_iff i n).mpr h

/-- A step whose next delivery is a move of a run makes that move. -/
theorem step_of_sends {n : NodeMove} {i : Instr} (h : n.sends = some i) (s : State) (a : List Delivery) :
    step { s with agenda := encode i :: a } = .next (n.run { s with agenda := a }) := by
  simp only [step, fetch, decode_encode_of_sends h]
  exact exec_of_sends h _

/-- A run of the core by its first step. -/
theorem core_run_succ {s t : State} (h : step s = .next t) (k : Nat) :
    Sys2Proof.core.run (k + 1) s = Sys2Proof.core.run k t := by
  have unfolded := Host.Core.run.eq_2 Sys2Proof.core s k
  rw [show Sys2Proof.core.step s = .next t from h] at unfolded
  exact unfolded

end Sys2Proof.Machine
end

