-- ==== Sys2Proof/Laws/PerInstr.lean ====
section
/-! SUPPORT. The statements made of every instruction as syntax, one lemma for each constructor. -/

namespace Sys2Proof.Laws.PortArity

/-- How many bytes a port takes (30_encoding.md R84, R85; log 2). -/
def bytesOf : Port → Nat
  | .tlmEnc => 1
  | .tlmDec => 1
  | .tlmEncf => 6
  | .tlmDecf => 6
  | .qdecSample => 1
  | .cmdPack => 3
  | .cmdRx => 1
  | .servoStep => 1
  | .evPin => 3
  | .evRxbyte => 1
  | .ustep => 0
  | .reset => 4
  | .pass => 0
  | .cmdSend => 3
  | .evPins => 3
  | .cmdByte => 1
  | .tlmByte => 1
  | .qdecKey _ => 1

/-- A well-formed instruction is sent as exactly the bytes that its port takes. -/
def Statement (i : Instr) : Prop :=
  i.wf = true → (encode i).payload.length = bytesOf (encode i).port

theorem tlmEnc (v : Byte) : Statement (.tlmEnc v) := fun _ => rfl
theorem tlmDec (b : Byte) : Statement (.tlmDec b) := fun _ => rfl
theorem tlmEncf (x y roll pitch b1 b2 : Byte) : Statement (.tlmEncf x y roll pitch b1 b2) := fun _ => rfl
theorem tlmDecf (datagram : List Byte) : Statement (.tlmDecf datagram) := fun h => by simpa [Instr.wf, encode, bytesOf] using h
theorem qdecSample (m : Motor) : Statement (.qdecSample m) := fun _ => rfl
theorem cmdPack (d : Word) (id : Bit) : Statement (.cmdPack d id) := fun _ => rfl
theorem cmdRx (b : Byte) : Statement (.cmdRx b) := fun _ => rfl
theorem servoStep (m : Motor) : Statement (.servoStep m) := fun _ => rfl
theorem evPin (m : Motor) (a b : Bit) : Statement (.evPin m a b) := fun _ => rfl
theorem evRxbyte (b : Byte) : Statement (.evRxbyte b) := fun _ => rfl
theorem ustep : Statement .ustep := fun _ => rfl
theorem reset (a0 b0 a1 b1 : Bit) : Statement (.reset a0 b0 a1 b1) := fun _ => rfl
theorem pass : Statement .pass := fun _ => rfl
theorem cmdSend (d : Word) (id : Bit) : Statement (.cmdSend d id) := fun _ => rfl
theorem evPins (m : Motor) (a b : Bit) : Statement (.evPins m a b) := fun _ => rfl
theorem cmdMsw (id : Bit) (hi6 : BitVec 6) : Statement (.cmdMsw id hi6) := fun _ => rfl
theorem cmdLsw (lo7 : BitVec 7) : Statement (.cmdLsw lo7) := fun _ => rfl
theorem tlmZero : Statement .tlmZero := fun _ => rfl
theorem tlmLow (m : BitVec 4) : Statement (.tlmLow m) := fun _ => rfl
theorem tlmHigh (h x : BitVec 4) : Statement (.tlmHigh h x) := fun _ => rfl
theorem qcombo0000 (m : Motor) : Statement (.qcombo0000 m) := fun _ => rfl
theorem qcombo0001 (m : Motor) : Statement (.qcombo0001 m) := fun _ => rfl
theorem qcombo0010 (m : Motor) : Statement (.qcombo0010 m) := fun _ => rfl
theorem qcombo0011 (m : Motor) : Statement (.qcombo0011 m) := fun _ => rfl
theorem qcombo0100 (m : Motor) : Statement (.qcombo0100 m) := fun _ => rfl
theorem qcombo0101 (m : Motor) : Statement (.qcombo0101 m) := fun _ => rfl
theorem qcombo0110 (m : Motor) : Statement (.qcombo0110 m) := fun _ => rfl
theorem qcombo0111 (m : Motor) : Statement (.qcombo0111 m) := fun _ => rfl
theorem qcombo1000 (m : Motor) : Statement (.qcombo1000 m) := fun _ => rfl
theorem qcombo1001 (m : Motor) : Statement (.qcombo1001 m) := fun _ => rfl
theorem qcombo1010 (m : Motor) : Statement (.qcombo1010 m) := fun _ => rfl
theorem qcombo1011 (m : Motor) : Statement (.qcombo1011 m) := fun _ => rfl
theorem qcombo1100 (m : Motor) : Statement (.qcombo1100 m) := fun _ => rfl
theorem qcombo1101 (m : Motor) : Statement (.qcombo1101 m) := fun _ => rfl
theorem qcombo1110 (m : Motor) : Statement (.qcombo1110 m) := fun _ => rfl
theorem qcombo1111 (m : Motor) : Statement (.qcombo1111 m) := fun _ => rfl

end Sys2Proof.Laws.PortArity
end

