-- ==== Sys2Proof/Tests/Slice0.lean ====
section
/-! SUPPORT. The model's own tests, each of one step on one small state, with the expected result from the spec (named
in the comment), and a witness for the hypotheses of every statement. -/

namespace Sys2Proof.Tests

open Sys2Proof.Machine

/-! ### A small state -/

/-- A channel at rest. -/
def chan : Channel where
  encA := 0#1
  encB := 0#1
  qphase := 0#2
  qpos := 0#16
  target := 0#16
  dir := .fwd
  duty := .zero
  atTarget := false
  encFlag := false
  encResync := false

/-- The default parameters, with numbers for the OPEN ones. -/
def cfg : Config where
  ovfPolicy := .clampAndFlag
  unpackSignMode := .zeroExtend
  phaseMap := .g0
  encoderFaultReport := .off
  errArith := .exact
  tpr0 := 5000
  tpr1 := 5000
  minGap := 2

/-- A state after a construction with low pins. -/
def st : State where
  cfg := cfg
  ch0 := chan
  ch1 := chan
  rxState := .awaitingMsw
  rxMotor := 0#1
  rxHigh6 := 0#6
  rxByte := 0x00#8
  cmdFlag := false
  seqPc := 0
  hit := false
  out := []
  agenda := []
  draws := 1

/-- `st` with motor 0's channel `c`. -/
def with0 (c : Channel) : State :=
  { st with ch0 := c }

/-- `st` with STICKY_FLAG. -/
def sticky : State :=
  { st with cfg := { cfg with encoderFaultReport := .stickyFlag } }

/-- `st` with SIGN_EXTEND_13. -/
def signed : State :=
  { st with cfg := { cfg with unpackSignMode := .signExtend13 } }

/-- A state with id and high bits of an MSW captured. -/
def waiting (id : Bit) (hi6 : BitVec 6) : State :=
  { st with rxState := .awaitingLsw, rxMotor := id, rxHigh6 := hi6 }

/-- `sticky` with motor 0 at a phase and QPOS 100. -/
def after (phase : BitVec 2) : State :=
  { sticky with ch0 := { chan with qphase := phase, qpos := 100#16 } }

/-- One step answers a next state with property `p`. -/
def leads (o : Host.Outcome State Fault Refusal) (p : State → Bool) : Bool :=
  match o with
  | .next t => p t
  | .fault _ => false
  | .refused _ => false

/-- One step is refused with `r`. -/
def refuses (o : Host.Outcome State Fault Refusal) (r : Refusal) : Bool :=
  match o with
  | .next _ => false
  | .fault _ => false
  | .refused r' => r' == r

/-- A delivery decodes to `i`. -/
def reads (d : Delivery) (i : Instr) : Bool :=
  match decode d with
  | .ok j => j == i
  | .error _ => false

/-- A delivery is rejected with `e`. -/
def rejects (d : Delivery) (e : Reject) : Bool :=
  match decode d with
  | .ok _ => false
  | .error e' => e' == e

/-! ### WellFormed: an ill-formed term for each check (R100, R102, R103, R76) -/

theorem test_wf_tlmEnc : (Instr.tlmEnc 0x09#8).wf = false ∧ (Instr.tlmEnc 0xF7#8).wf = false := by decide
theorem test_wf_tlmEncf : (Instr.tlmEncf 0#8 0#8 0x09#8 0#8 0#8 0#8).wf = false := by decide
theorem test_wf_tlmDecf : (Instr.tlmDecf [0#8, 0#8, 0#8, 0#8, 0#8]).wf = false := by decide
theorem test_wf_tlmLow : (Instr.tlmLow 0#4).wf = false ∧ (Instr.tlmLow 9#4).wf = false := by decide
theorem test_wf_tlmHigh : (Instr.tlmHigh 0#4 8#4).wf = false := by decide

/-! ### The decoder rejects by name (R56, R81, R84, R85; log 2) -/

theorem test_reject_length : rejects ⟨.cmdByte, [0x80#8, 0x00#8]⟩ .payloadLength = true := by decide
theorem test_reject_motor : rejects ⟨.servoStep, [0x02#8]⟩ .motorIndex = true := by decide
theorem test_reject_bit : rejects ⟨.evPin, [0x00#8, 0x02#8, 0x00#8]⟩ .bitOperand = true := by decide
theorem test_reject_key : rejects ⟨.qdecKey .m0, [0x10#8]⟩ .keyWidth = true := by decide

/-! ### Decoding: a written delivery for each constructor

The wire words are written from R71, R72, R76 and R81; the operands at the operations' own ports from log 2. -/

theorem test_decode_tlmEnc : reads ⟨.tlmEnc, [0b11111101#8]⟩ (.tlmEnc (-3#8)) = true := by decide
theorem test_decode_tlmDec : reads ⟨.tlmDec, [0b01010000#8]⟩ (.tlmDec 0x50#8) = true := by decide
theorem test_decode_tlmEncf : reads ⟨.tlmEncf, [0xFD#8, 0x05#8, 0xF8#8, 0x08#8, 0x01#8, 0x00#8]⟩ (.tlmEncf (-3#8) 5#8 (-8#8) 8#8 1#8 0#8) = true := by decide
theorem test_decode_tlmDecf : reads ⟨.tlmDecf, [0x03#8, 0x50#8, 0x08#8, 0x80#8, 0x10#8, 0x00#8]⟩ (.tlmDecf [0x03#8, 0x50#8, 0x08#8, 0x80#8, 0x10#8, 0x00#8]) = true := by decide
theorem test_decode_qdecSample : reads ⟨.qdecSample, [0x01#8]⟩ (.qdecSample .m1) = true := by decide
theorem test_decode_cmdPack : reads ⟨.cmdPack, [0b00010011#8, 0b10001000#8, 0b00000001#8]⟩ (.cmdPack 5000#16 1#1) = true := by decide
theorem test_decode_cmdRx : reads ⟨.cmdRx, [0b11000001#8]⟩ (.cmdRx 0xC1#8) = true := by decide
theorem test_decode_servoStep : reads ⟨.servoStep, [0x00#8]⟩ (.servoStep .m0) = true := by decide
theorem test_decode_evPin : reads ⟨.evPin, [0x01#8, 0x00#8, 0x01#8]⟩ (.evPin .m1 0#1 1#1) = true := by decide
theorem test_decode_evRxbyte : reads ⟨.evRxbyte, [0xC0#8]⟩ (.evRxbyte 0xC0#8) = true := by decide
theorem test_decode_ustep : reads ⟨.ustep, []⟩ .ustep = true := by decide
theorem test_decode_reset : reads ⟨.reset, [0x01#8, 0x01#8, 0x00#8, 0x00#8]⟩ (.reset 1#1 1#1 0#1 0#1) = true := by decide
theorem test_decode_pass : reads ⟨.pass, []⟩ .pass = true := by decide
theorem test_decode_cmdSend : reads ⟨.cmdSend, [0x00#8, 0x82#8, 0x00#8]⟩ (.cmdSend 130#16 0#1) = true := by decide
theorem test_decode_evPins : reads ⟨.evPins, [0x00#8, 0x01#8, 0x00#8]⟩ (.evPins .m0 1#1 0#1) = true := by decide
theorem test_decode_cmdMsw : reads ⟨.cmdByte, [0b11100111#8]⟩ (.cmdMsw 1#1 0b100111#6) = true := by decide
theorem test_decode_cmdLsw : reads ⟨.cmdByte, [0b00001000#8]⟩ (.cmdLsw 0b0001000#7) = true := by decide
theorem test_decode_tlmZero : reads ⟨.tlmByte, [0b00000000#8]⟩ .tlmZero = true := by decide
theorem test_decode_tlmLow : reads ⟨.tlmByte, [0b00001000#8]⟩ (.tlmLow 0b1000#4) = true := by decide
theorem test_decode_tlmHigh : reads ⟨.tlmByte, [0b00001001#8]⟩ (.tlmHigh 0b0000#4 0b1001#4) = true := by decide
theorem test_decode_qcombo0000 : reads ⟨.qdecKey .m0, [0b00000000#8]⟩ (.qcombo0000 .m0) = true := by decide
theorem test_decode_qcombo0001 : reads ⟨.qdecKey .m1, [0b00000001#8]⟩ (.qcombo0001 .m1) = true := by decide
theorem test_decode_qcombo0010 : reads ⟨.qdecKey .m0, [0b00000010#8]⟩ (.qcombo0010 .m0) = true := by decide
theorem test_decode_qcombo0011 : reads ⟨.qdecKey .m1, [0b00000011#8]⟩ (.qcombo0011 .m1) = true := by decide
theorem test_decode_qcombo0100 : reads ⟨.qdecKey .m0, [0b00000100#8]⟩ (.qcombo0100 .m0) = true := by decide
theorem test_decode_qcombo0101 : reads ⟨.qdecKey .m1, [0b00000101#8]⟩ (.qcombo0101 .m1) = true := by decide
theorem test_decode_qcombo0110 : reads ⟨.qdecKey .m0, [0b00000110#8]⟩ (.qcombo0110 .m0) = true := by decide
theorem test_decode_qcombo0111 : reads ⟨.qdecKey .m1, [0b00000111#8]⟩ (.qcombo0111 .m1) = true := by decide
theorem test_decode_qcombo1000 : reads ⟨.qdecKey .m0, [0b00001000#8]⟩ (.qcombo1000 .m0) = true := by decide
theorem test_decode_qcombo1001 : reads ⟨.qdecKey .m1, [0b00001001#8]⟩ (.qcombo1001 .m1) = true := by decide
theorem test_decode_qcombo1010 : reads ⟨.qdecKey .m0, [0b00001010#8]⟩ (.qcombo1010 .m0) = true := by decide
theorem test_decode_qcombo1011 : reads ⟨.qdecKey .m1, [0b00001011#8]⟩ (.qcombo1011 .m1) = true := by decide
theorem test_decode_qcombo1100 : reads ⟨.qdecKey .m0, [0b00001100#8]⟩ (.qcombo1100 .m0) = true := by decide
theorem test_decode_qcombo1101 : reads ⟨.qdecKey .m1, [0b00001101#8]⟩ (.qcombo1101 .m1) = true := by decide
theorem test_decode_qcombo1110 : reads ⟨.qdecKey .m0, [0b00001110#8]⟩ (.qcombo1110 .m0) = true := by decide
theorem test_decode_qcombo1111 : reads ⟨.qdecKey .m1, [0b00001111#8]⟩ (.qcombo1111 .m1) = true := by decide

/-! ### Effects -/

-- R100's example: TLM.ENC 5 gives 0x50
theorem test_tlmEnc : leads (exec (.tlmEnc 5#8) st) (fun t => t.out == [.tlmByte 0x50#8]) = true := by decide
-- 95_test_vectors.md 2.1: 0x09 decodes to 0, the boundary between the classes
theorem test_tlmDec : leads (exec (.tlmDec 0x09#8) st) (fun t => t.out == [.tlmValue 0#8]) = true := by decide
-- R102's example
theorem test_tlmEncf :
    leads (exec (.tlmEncf (-3#8) 5#8 (-8#8) 8#8 1#8 0#8) st)
      (fun t => t.out == [.tlmDatagram [0x03#8, 0x50#8, 0x08#8, 0x80#8, 0x10#8, 0x00#8]]) = true := by decide
-- 95_test_vectors.md 2.1: FF in every lane gives (-15, 15, 15, -15, -15, -15)
theorem test_tlmDecf :
    leads (exec (.tlmDecf [0xFF#8, 0xFF#8, 0xFF#8, 0xFF#8, 0xFF#8, 0xFF#8]) st)
      (fun t => t.out == [.tlmFrame ⟨-15#8, 15#8, 15#8, -15#8, -15#8, -15#8⟩]) = true := by decide
-- 95_test_vectors.md 2.2, wrap down: QPOS -32768 and pins 10 under G0 give 32767, phase 3
theorem test_qdecSample :
    leads (exec (.qdecSample .m0) (with0 { chan with encA := 1#1, qpos := 0x8000#16 }))
      (fun t => t.ch0.qpos == 0x7FFF#16 && t.ch0.qphase == 3#2) = true := by decide
-- 95_test_vectors.md 2.3: -32768 clamps to 80 01, with OVF
theorem test_cmdPack :
    leads (exec (.cmdPack 0x8000#16 0#1) st)
      (fun t => t.out == [.packed 0x80#8 0x01#8 true, .status (.commandOverflow 0x8000#16)]) = true := by decide
-- R145's example, second byte: 7F after C1 emits (1, 255)
theorem test_cmdRx :
    leads (exec (.cmdRx 0x7F#8) (waiting 1#1 1#6))
      (fun t => t.out == [.emit 1#1 255#16] && t.ch1.target == 255#16 && t.rxState == .awaitingMsw) = true := by decide
-- 95_test_vectors.md 2.4: TARGET 8191 and QPOS -32768 give FWD under EXACT
theorem test_servoStep :
    leads (exec (.servoStep .m0) (with0 { chan with target := 8191#16, qpos := 0x8000#16, dir := .rev }))
      (fun t => t.ch0.dir == .fwd && t.ch0.duty == .pwmDutyOn && !t.ch0.atTarget) = true := by decide
-- R190's example: the pins move, the flag is set, QPOS is not yet changed
theorem test_evPin :
    leads (exec (.evPin .m0 0#1 1#1) st)
      (fun t => t.ch0.encB == 1#1 && t.ch0.encFlag && t.ch0.qpos == 0#16 && !t.ch1.encFlag) = true := by decide
-- R191's example
theorem test_evRxbyte :
    leads (exec (.evRxbyte 0xC0#8) st) (fun t => t.rxByte == 0xC0#8 && t.cmdFlag) = true := by decide
-- R194: a flag found set is cleared
theorem test_ustep :
    leads (exec .ustep { with0 { chan with encFlag := true } with seqPc := 1, hit := true })
      (fun t => !t.ch0.encFlag && t.seqPc == 2 && t.hit) = true := by decide
-- R240's example: RESET 1, 1, 0, 0 under G0 gives phases 2 and 0
theorem test_reset :
    leads (exec (.reset 1#1 1#1 0#1 0#1) { with0 { chan with qpos := 7#16 } with seqPc := 4 })
      (fun t => t.ch0.qphase == 2#2 && t.ch1.qphase == 0#2 && t.ch0.qpos == 0#16 && t.seqPc == 0) = true := by decide
-- 95_test_vectors.md 2.5, the same pass's target: CU writes TARGET[0] = 5 and SV(0) drives FWD, ON
theorem test_pass :
    leads (exec .pass { waiting 0#1 0#6 with rxByte := 0x05#8, cmdFlag := true })
      (fun t => t.ch0.target == 5#16 && t.ch0.dir == .fwd && t.ch0.duty == .pwmDutyOn && t.seqPc == 0 && !t.cmdFlag)
      = true := by decide
-- R86: the last byte of CMD.SEND is left pending, whatever happens in the gap
theorem test_cmdSend :
    leads (exec (.cmdSend 130#16 0#1) st) (fun t => t.rxByte == 0x02#8 && t.cmdFlag) = true := by decide
-- R86: EV.PINS does nothing where the pins are already there
theorem test_evPins : leads (exec (.evPins .m0 0#1 0#1) st) (fun t => !t.ch0.encFlag) = true := by decide
-- 95_test_vectors.md 2.3: the second MSW replaces the first
theorem test_cmdMsw :
    leads (exec (.cmdMsw 1#1 0#6) (waiting 0#1 5#6))
      (fun t => t.rxMotor == 1#1 && t.rxHigh6 == 0#6 && t.rxState == .awaitingLsw && t.out == []) = true := by decide
-- 95_test_vectors.md 2.3: A0, 00 under SIGN_EXTEND_13 emits (0, -4096)
theorem test_cmdLsw :
    leads (exec (.cmdLsw 0#7) { signed with rxState := .awaitingLsw, rxHigh6 := 0b100000#6 })
      (fun t => t.out == [.emit 0#1 0xF000#16] && t.ch0.target == 0xF000#16) = true := by decide
-- R101: 0x00 gives 0
theorem test_tlmZero : leads (exec .tlmZero st) (fun t => t.out == [.tlmValue 0#8]) = true := by decide
-- R101: 0x08 gives -8
theorem test_tlmLow : leads (exec (.tlmLow 8#4) st) (fun t => t.out == [.tlmValue (-8#8)]) = true := by decide
-- R101: 0x11 gives -1, the low nibble is dropped
theorem test_tlmHigh : leads (exec (.tlmHigh 1#4 1#4) st) (fun t => t.out == [.tlmValue (-1#8)]) = true := by decide

-- 95_test_vectors.md 2.2: the sixteen combos from QPOS = 100, with STICKY_FLAG
theorem test_qcombo0000 :
    leads (exec (.qcombo0000 .m0) (after 0#2))
      (fun t => t.ch0.qpos == 100#16 && t.ch0.qphase == 0#2 && !t.ch0.encResync) = true := by decide
theorem test_qcombo0001 :
    leads (exec (.qcombo0001 .m0) (after 0#2))
      (fun t => t.ch0.qpos == 101#16 && t.ch0.qphase == 1#2 && !t.ch0.encResync) = true := by decide
theorem test_qcombo0010 :
    leads (exec (.qcombo0010 .m0) (after 0#2))
      (fun t => t.ch0.qpos == 100#16 && t.ch0.qphase == 2#2 && t.ch0.encResync) = true := by decide
theorem test_qcombo0011 :
    leads (exec (.qcombo0011 .m0) (after 0#2))
      (fun t => t.ch0.qpos == 99#16 && t.ch0.qphase == 3#2 && !t.ch0.encResync) = true := by decide
theorem test_qcombo0100 :
    leads (exec (.qcombo0100 .m0) (after 1#2))
      (fun t => t.ch0.qpos == 99#16 && t.ch0.qphase == 0#2 && !t.ch0.encResync) = true := by decide
theorem test_qcombo0101 :
    leads (exec (.qcombo0101 .m0) (after 1#2))
      (fun t => t.ch0.qpos == 100#16 && t.ch0.qphase == 1#2 && !t.ch0.encResync) = true := by decide
theorem test_qcombo0110 :
    leads (exec (.qcombo0110 .m0) (after 1#2))
      (fun t => t.ch0.qpos == 101#16 && t.ch0.qphase == 2#2 && !t.ch0.encResync) = true := by decide
theorem test_qcombo0111 :
    leads (exec (.qcombo0111 .m0) (after 1#2))
      (fun t => t.ch0.qpos == 100#16 && t.ch0.qphase == 3#2 && t.ch0.encResync) = true := by decide
theorem test_qcombo1000 :
    leads (exec (.qcombo1000 .m0) (after 2#2))
      (fun t => t.ch0.qpos == 100#16 && t.ch0.qphase == 0#2 && t.ch0.encResync) = true := by decide
theorem test_qcombo1001 :
    leads (exec (.qcombo1001 .m0) (after 2#2))
      (fun t => t.ch0.qpos == 99#16 && t.ch0.qphase == 1#2 && !t.ch0.encResync) = true := by decide
theorem test_qcombo1010 :
    leads (exec (.qcombo1010 .m0) (after 2#2))
      (fun t => t.ch0.qpos == 100#16 && t.ch0.qphase == 2#2 && !t.ch0.encResync) = true := by decide
theorem test_qcombo1011 :
    leads (exec (.qcombo1011 .m0) (after 2#2))
      (fun t => t.ch0.qpos == 101#16 && t.ch0.qphase == 3#2 && !t.ch0.encResync) = true := by decide
theorem test_qcombo1100 :
    leads (exec (.qcombo1100 .m0) (after 3#2))
      (fun t => t.ch0.qpos == 101#16 && t.ch0.qphase == 0#2 && !t.ch0.encResync) = true := by decide
theorem test_qcombo1101 :
    leads (exec (.qcombo1101 .m0) (after 3#2))
      (fun t => t.ch0.qpos == 100#16 && t.ch0.qphase == 1#2 && t.ch0.encResync) = true := by decide
theorem test_qcombo1110 :
    leads (exec (.qcombo1110 .m0) (after 3#2))
      (fun t => t.ch0.qpos == 99#16 && t.ch0.qphase == 2#2 && !t.ch0.encResync) = true := by decide
theorem test_qcombo1111 :
    leads (exec (.qcombo1111 .m0) (after 3#2))
      (fun t => t.ch0.qpos == 100#16 && t.ch0.qphase == 3#2 && !t.ch0.encResync) = true := by decide

/-! ### The phase maps and the output pins -/

-- 95_test_vectors.md 2.2, map G1: pins 10 give code 1 and count up, pins 01 give code 3 and count down
theorem test_qdecSample_g1 :
    leads (exec (.qdecSample .m0) { with0 { chan with encA := 1#1 } with cfg := { cfg with phaseMap := .g1 } })
      (fun t => t.ch0.qpos == 1#16 && t.ch0.qphase == 1#2) = true ∧
    leads (exec (.qdecSample .m0) { with0 { chan with encB := 1#1 } with cfg := { cfg with phaseMap := .g1 } })
      (fun t => t.ch0.qpos == 0xFFFF#16 && t.ch0.qphase == 3#2) = true := by decide
-- R121: the codes of the pin words 00 and 10, which tell the eight rows apart
theorem test_reset_phaseMaps :
    ∀ row ∈ ([(.g0, 0#2, 3#2), (.g1, 0#2, 1#2), (.g2, 3#2, 2#2), (.g3, 1#2, 2#2), (.g4, 2#2, 1#2), (.g5, 2#2, 3#2),
        (.g6, 1#2, 0#2), (.g7, 3#2, 0#2)] : List (PhaseMap × BitVec 2 × BitVec 2)),
      leads (exec (.reset 0#1 0#1 1#1 0#1) { st with cfg := { cfg with phaseMap := row.1 } })
        (fun t => t.ch0.qphase == row.2.1 && t.ch1.qphase == row.2.2) = true := by decide
-- R170: a negative error drives REV, and at error 0 DIR keeps it (D10); the pins show it through DIR_PIN_LEVELS (R174)
theorem test_dirOut :
    leads (exec (.servoStep .m0) (with0 { chan with qpos := 1#16 }))
      (fun t => dirOut (fun d => d == .fwd) t .m0 == false) = true ∧
    leads (exec (.servoStep .m0) (with0 { chan with dir := .rev })) (fun t => dirOut (fun d => d == .fwd) t .m0 == false)
      = true := by decide
-- R125, R30: pins 11 at phase 0 are a double skip, which the read shows with STICKY_FLAG and never with OFF
theorem test_encResyncOut :
    leads (exec (.qdecSample .m0) { sticky with ch0 := { chan with encA := 1#1, encB := 1#1 } })
      (fun t => encResyncOut t .m0 == some true && encResyncOut t .m1 == some false) = true ∧
    leads (exec (.qdecSample .m0) (with0 { chan with encA := 1#1, encB := 1#1 })) (fun t => encResyncOut t .m0 == none)
      = true := by decide

/-! ### The environment's moves -/

-- R227: a read gives the register, ENC_RESYNC only with STICKY_FLAG, and a trigger gives nothing
theorem test_answer :
    (EnvMove.read (.dir .m1)).answer st = .dir .fwd ∧ (EnvMove.read (.duty .m0)).answer st = .duty .zero ∧
    (EnvMove.read (.atTarget .m0)).answer st = .atTarget false ∧
    (EnvMove.read (.encResync .m0)).answer st = .nothing ∧
    (EnvMove.read (.encResync .m0)).answer sticky = .encResync false ∧
    (EnvMove.rxByte 0x80#8).answer st = .nothing := by decide
-- R197, R227: RESET inside a run, CMD.RX, SERVO.STEP, a combo word and a stateless unit are no moves of a run
theorem test_nodeMoveOf :
    (∀ i ∈ ([.reset 0#1 0#1 0#1 0#1, .cmdRx 0#8, .servoStep .m0, .qdecSample .m1, .qcombo0001 .m0, .tlmDec 0#8, .pass] :
        List Instr), nodeMoveOf i = none) ∧
    nodeMoveOf (.evPin .m1 1#1 0#1) = some (.env (.pin .m1 1#1 0#1)) ∧
    nodeMoveOf (.evRxbyte 0xC0#8) = some (.env (.rxByte 0xC0#8)) ∧ nodeMoveOf .ustep = some .ustep := by decide
-- log 20: nor is a delivery that would stop step
theorem test_onlyNodeMoves :
    { st with agenda := [⟨.evRxbyte, [0xC0#8]⟩, ⟨.ustep, []⟩] }.onlyNodeMoves = true ∧
    { st with agenda := [⟨.evRxbyte, []⟩] }.onlyNodeMoves = false ∧
    { st with agenda := [⟨.cmdRx, [0xC0#8]⟩] }.onlyNodeMoves = false := by decide

/-! ### A bare table word (log 3) -/

theorem test_tableWord_msw : decodeTableWord 8 0xE7 = some (.cmdMsw 1#1 0b100111#6) := by decide
theorem test_tableWord_key : decodeTableWord 8 0b1011 = some (.qcombo1011 .m0) := by decide
-- the very next step runs it: QCOMBO_0001 counts up
theorem test_withFetchWord :
    leads (step (st.withFetchWord 8 0b0001)) (fun t => t.ch0.qpos == 1#16 && t.ch0.qphase == 1#2 && t.agenda == [])
      = true := by decide

/-! ### Witnesses: the hypotheses of each statement can be met, at the ends of their ranges -/

theorem witness_TlmDecodeByClass : (0x08#8 : Byte).toNat ≤ 8 ∧ 8 < (0x09#8 : Byte).toNat ∧ 8 < (0xFF#8 : Byte).toNat := by
  decide

theorem witness_TlmEncodeTable :
    (-8 ≤ (0xF8#8 : Byte).toInt ∧ (0xF8#8 : Byte).toInt ≤ 0) ∧
    (0 < (0x08#8 : Byte).toInt ∧ (0x08#8 : Byte).toInt ≤ 8) ∧
    ∃ t, exec (.tlmEnc 0x08#8) st = .next t ∧ Output.tlmByte 0x80#8 ∈ t.out := by
  exact ⟨by decide, by decide, _, rfl, by decide⟩

theorem witness_TlmEncodeRefusesOutOfRange :
    (0xF7#8 : Byte).toInt < -8 ∧ 8 < (0x09#8 : Byte).toInt ∧ (0x80#8 : Byte).toInt < -8 ∧ 8 < (0x7F#8 : Byte).toInt := by
  decide

theorem witness_TlmEncodeFrameByLanes :
    (∀ v ∈ ([0xF8#8, 0x08#8, 0#8, 1#8, 0#8, 1#8] : List Byte), -8 ≤ v.toInt ∧ v.toInt ≤ 8) ∧
    ∃ v ∈ ([0#8, 0#8, 0#8, 0#8, 0#8, 0x09#8] : List Byte), exec (.tlmEnc v) st = .refused .tlmRange := by
  exact ⟨by decide, 0x09#8, by decide, rfl⟩

theorem witness_TlmDecodeFrame :
    ([0#8, 0#8, 0#8, 0#8, 0#8, 0#8] : List Byte).length = 6 ∧ ([0#8, 0#8, 0#8, 0#8, 0#8] : List Byte).length ≠ 6 ∧
    ([0#8, 0#8, 0#8, 0#8, 0#8, 0#8, 0#8] : List Byte).length ≠ 6 := by
  decide

theorem witness_ChannelRoundTrip : -8 ≤ (0x08#8 : Byte).toInt ∧ (0x08#8 : Byte).toInt ≤ 8 := by decide

theorem witness_FrameRoundTrip :
    ∀ v ∈ ([0xF8#8, 0x08#8, 0xF8#8, 0x08#8, 0#8, 1#8] : List Byte), -8 ≤ v.toInt ∧ v.toInt ≤ 8 := by decide

theorem witness_TelemetryWordClasses :
    (1 ≤ (1#4 : BitVec 4).toNat ∧ (8#4 : BitVec 4).toNat ≤ 8) ∧
    8 < 16 * (0#4 : BitVec 4).toNat + (9#4 : BitVec 4).toNat := by decide

theorem witness_StatelessUnitsTouchNothing :
    st.cfg.ovfPolicy = (waiting 1#1 5#6).cfg.ovfPolicy ∧
    (∃ t, exec (.tlmEnc 1#8) st = .next t) ∧ (∃ t, exec (.tlmDec 1#8) st = .next t) ∧
    (∃ t, exec (.tlmEncf 1#8 1#8 1#8 1#8 1#8 1#8) st = .next t) ∧
    (∃ t, exec (.tlmDecf [1#8, 1#8, 1#8, 1#8, 1#8, 1#8]) st = .next t) ∧ (∃ t, exec (.cmdPack 1#16 1#1) st = .next t) := by
  exact ⟨rfl, ⟨_, rfl⟩, ⟨_, rfl⟩, ⟨_, rfl⟩, ⟨_, rfl⟩, _, rfl⟩

theorem witness_PhaseMapsAreTheGrayBijections :
    (∃ map, ∀ g, phaseCode .g3 g = phaseCode map g) ∧ phaseCode .g6 0b00#2 = phaseCode .g6 0b11#2 + 2#2 :=
  ⟨⟨.g3, fun _ => rfl⟩, rfl⟩

theorem witness_SampleWithoutMovementIsANoOp :
    phaseCode (with0 { chan with encA := 1#1, qphase := 3#2 }).cfg.phaseMap (1#1 ++ 0#1) = 3#2 := by decide

theorem witness_ResyncIsReportedOnlyWithStickyFlag :
    st.cfg.encoderFaultReport = .off ∧ sticky.cfg.encoderFaultReport = .stickyFlag := by decide

theorem witness_NegativeDeltasAlias :
    (-8191 ≤ (0xE001#16 : Word).toInt ∧ (0xE001#16 : Word).toInt ≤ -1) ∧
    (-8191 ≤ (0xFFFF#16 : Word).toInt ∧ (0xFFFF#16 : Word).toInt ≤ -1) := by decide

theorem witness_ReceiverStepsOnAByte :
    (0x80#8 : Byte).getLsbD 7 = true ∧ (0x7F#8 : Byte).getLsbD 7 = false ∧ (waiting 1#1 1#6).rxState = .awaitingLsw ∧
    st.rxState = .awaitingMsw := by decide

theorem witness_EmissionWritesTarget :
    (0xFF#8 : Byte).getLsbD 7 = true ∧ (0x00#8 : Byte).getLsbD 7 = false ∧ (waiting 0#1 0#6).rxState = .awaitingLsw := by
  decide

theorem witness_CommandWordsStepTheReceiver : st.rxState = .awaitingMsw ∧ (waiting 1#1 63#6).rxState = .awaitingLsw := by
  decide

theorem witness_CommandRoundTrip :
    st.cfg.unpackSignMode = .zeroExtend ∧ signed.cfg.unpackSignMode = .signExtend13 ∧
    -8191 ≤ (0xE001#16 : Word).toInt ∧ (0xFFFF#16 : Word).toInt ≤ -1 := by decide

theorem witness_ReceiverResynchronises :
    (0x7F#8 : Byte).getLsbD 7 = false ∧ (0x80#8 : Byte).getLsbD 7 = true ∧ (0x00#8 : Byte).getLsbD 7 = false := by decide

theorem witness_ServoStepsBySign :
    0 < Spec.servoErr .exact { chan with target := 1#16 } ∧ Spec.servoErr .exact { chan with qpos := 1#16 } < 0 ∧
    Spec.servoErr .wrap16 chan = 0 ∧ Spec.servoErr .wrap16 { chan with target := 0x7FFF#16, qpos := 0x8000#16 } < 0 := by
  decide

theorem witness_ServoArithmeticsAgreeInRange :
    (0x8000#16 : Word).toInt - (0#16 : Word).toInt = -32768 ∧ (0x7FFF#16 : Word).toInt - (0#16 : Word).toInt = 32767 ∧
    32767 < (0x7FFF#16 : Word).toInt - (0xFFFF#16 : Word).toInt ∧
    (0x8000#16 : Word).toInt - (1#16 : Word).toInt < -32768 := by decide

theorem witness_DutyPinIsZeroExactlyAtTarget :
    (1 : Nat) ≠ 0 ∧ Motor.m1 ≠ .m0 ∧ 0 < Spec.servoErr .exact { chan with target := 1#16 } ∧
    Spec.servoErr .exact { chan with qpos := 1#16 } < 0 ∧ Spec.servoErr .exact chan = 0 := by decide

theorem witness_EvPinsOnlyOnChange :
    ((st.chan .m0).encA = 0#1 ∧ (st.chan .m0).encB = 0#1) ∧
    ¬((st.chan .m0).encA = 0#1 ∧ (st.chan .m0).encB = 1#1) := by decide

theorem witness_MicroStepsOfThePass :
    (∀ pc : Fin 11, { st with seqPc := pc }.seqPc = pc) ∧ st.hit = false ∧ { st with hit := true }.hit = true ∧
    Spec.encService .m1 + 2 = 5 := by decide

theorem witness_SequencerAlwaysSteps :
    { st with seqPc := 9 }.seqPc.val < 10 ∧ { st with seqPc := 10 }.seqPc.val = 10 := by decide

theorem witness_PassIsItsMicroSteps : 11 + st.seqPc.val = 11 ∧ 1 + { st with seqPc := 10 }.seqPc.val = 11 := by decide

theorem witness_CommandTriggerWindows :
    { st with seqPc := 6 }.seqPc = 6 ∧ { st with seqPc := 6 }.cmdFlag = false ∧
    { st with seqPc := 6, cmdFlag := true }.cmdFlag = true := by decide

theorem witness_EncoderTriggerWindows :
    st.seqPc = Spec.encService .m0 ∧ (st.chan .m0).encFlag = false ∧
    ((with0 { chan with encFlag := true }).chan .m0).encFlag = true ∧
    { st with seqPc := 3 }.seqPc = Spec.encService .m1 := by decide

theorem witness_CommandDeliveryDrivesTheServo :
    (st.seqPc = 0 ∧ Spec.exactDelta st.cfg.unpackSignMode 0#16 ∧ Spec.exactDelta st.cfg.unpackSignMode 8191#16) ∧
    (signed.seqPc = 0 ∧ Spec.exactDelta signed.cfg.unpackSignMode 0xF000#16 ∧
      Spec.exactDelta signed.cfg.unpackSignMode 4095#16) := by
  simp [Spec.exactDelta, st, signed, cfg]

theorem witness_FirstPassAfterResetHoldsStill : ∃ t, exec (.reset 1#1 1#1 0#1 1#1) st = .next t := ⟨_, rfl⟩

theorem witness_OperationsAreTotal :
    Spec.preconditionViolated (.tlmEnc 0x09#8) ∧ Spec.preconditionViolated (.tlmDecf []) ∧
    ¬Spec.preconditionViolated (.tlmEnc 0x08#8) ∧ ¬Spec.preconditionViolated .pass := by
  exact ⟨.inr (by decide), (by decide : ([] : List Byte).length ≠ 6), by simp [Spec.preconditionViolated], id⟩

theorem witness_TargetWrittenOnlyByEmission :
    ∃ t, exec (.cmdLsw 1#7) (waiting 0#1 0#6) = .next t ∧ (t.chan .m0).target ≠ ((waiting 0#1 0#6).chan .m0).target :=
  ⟨_, rfl, by decide⟩

theorem witness_DecoderWrittenOnlyBySamples :
    ∃ t, exec (.qdecSample .m0) (with0 { chan with encB := 1#1 }) = .next t ∧
      (t.chan .m0).qphase ≠ ((with0 { chan with encB := 1#1 }).chan .m0).qphase :=
  ⟨_, rfl, by decide⟩

theorem witness_ServoOutputsWrittenOnlyByServo :
    ∃ t, exec (.servoStep .m0) (with0 { chan with target := 3#16 }) = .next t ∧
      (t.chan .m0).duty ≠ ((with0 { chan with target := 3#16 }).chan .m0).duty :=
  ⟨_, rfl, by decide⟩

theorem witness_StickyFlagsClearedOnlyBySequencer :
    (∃ t, exec .ustep { with0 { chan with encFlag := true } with seqPc := 1, hit := true } = .next t ∧
      (t.chan .m0).encFlag = false) ∧
    (∃ t, exec .ustep { st with cmdFlag := true, seqPc := 7, hit := true } = .next t ∧ t.cmdFlag = false) ∧
    (∃ t, exec (.reset 0#1 0#1 0#1 0#1) { sticky with ch0 := { chan with encResync := true } } = .next t ∧
      (t.chan .m0).encResync = false) :=
  ⟨⟨_, rfl, by decide⟩, ⟨_, rfl, by decide⟩, _, rfl, rfl⟩

theorem witness_ConfigurationIsFixed : ∃ t, step st = .next t := ⟨_, rfl⟩

theorem witness_EveryStepKeepsTheInvariant : Invariant st ∧ Invariant signed ∧ ∃ t, step st = .next t := by
  refine ⟨?_, ?_, _, rfl⟩ <;> simp [ChannelInv, TargetReachable, st, signed, cfg, chan]

theorem witness_StepRunsTheNextDelivery :
    { st with agenda := [⟨.cmdRx, [0x80#8]⟩] }.agenda = ⟨.cmdRx, [0x80#8]⟩ :: [] ∧
    decode ⟨.cmdRx, [0x80#8]⟩ = .ok (.cmdRx 0x80#8) ∧ st.agenda = [] ∧
    decode ⟨.cmdRx, []⟩ = .error .payloadLength := by
  exact ⟨rfl, rfl, rfl, rfl⟩

theorem witness_TriggersSetTheirFlag :
    (EnvMove.pin .m0 0#1 1#1).sends = some (.evPin .m0 0#1 1#1) ∧ (EnvMove.rxByte 0xFF#8).sends = some (.evRxbyte 0xFF#8) ∧
    (EnvMove.read (.dir .m0)).sends = none ∧ st.cfg.encoderFaultReport = .off ∧
    sticky.cfg.encoderFaultReport = .stickyFlag := by decide

theorem witness_EveryInterleavingIsARun :
    (∀ i ∈ ([.evRxbyte 0x80#8, .ustep, .evPin .m1 1#1 0#1, .ustep, .pass] : List Instr), i.wf = true) ∧
    st.onlyNodeMoves = true ∧
    { st with agenda := [⟨.evPin, [0x01#8, 0x00#8, 0x01#8]⟩, ⟨.ustep, []⟩] }.onlyNodeMoves = true := by decide

theorem witness_DecodeOfEncode : (Instr.tlmLow 8#4).wf = true ∧ (Instr.tlmHigh 0#4 9#4).wf = true ∧ Instr.pass.wf = true := by
  decide

theorem witness_EncodeOfDecode : decode ⟨.evPins, [0x01#8, 0x00#8, 0x01#8]⟩ = .ok (.evPins .m1 0#1 1#1) := rfl

theorem witness_CommandByteClassIsBitSeven : (0x80#8 : Byte).getLsbD 7 = true ∧ (0x7F#8 : Byte).getLsbD 7 = false := by
  decide

end Sys2Proof.Tests
end

section
/-! SUPPORT. 00_scope.md R12: every operation completes, or is refused where an input precondition is violated.  Only
TLM.ENC, TLM.ENCF and TLM.DECF have a precondition; what each codec function refuses is said first. -/

namespace Sys2Proof.Machine

/-! ### What the telemetry codec refuses -/

/-- TLM.ENC's byte is missing exactly outside `TLM_RANGE` (R100). -/
theorem encodeChannel_eq_none_iff (v : Byte) : encodeChannel v = none ↔ v.toInt < -8 ∨ 8 < v.toInt := by
  unfold encodeChannel
  split_ifs with outside <;> simp [outside]

/-- A frame is missing exactly when one of its lanes is (R102, R107). -/
theorem encodeLanes_eq_none_iff (vs : List Byte) :
    encodeLanes vs = none ↔ ∃ v ∈ vs, v.toInt < -8 ∨ 8 < v.toInt := by
  induction vs with
  | nil => simp [encodeLanes]
  | cons v vs ih =>
    rw [List.exists_mem_cons_iff, ← encodeChannel_eq_none_iff, ← ih, encodeLanes]
    cases encodeChannel v <;> cases encodeLanes vs <;> simp

/-- A datagram decodes exactly when it has six bytes (R103, R56). -/
theorem decodeFrame_eq_none_iff (bs : List Byte) : decodeFrame bs = none ↔ bs.length ≠ 6 := by
  unfold decodeFrame
  split
  case h_1 => simp
  case h_2 notSix =>
    simp only [true_iff]
    intro six
    match bs, six with
    | [_, _, _, _, _, _], _ => exact notSix _ _ _ _ _ _ rfl

/-! ### The three operations that can be refused, by their codec function -/

theorem exec_tlmEnc_of_some {v b : Byte} (h : encodeChannel v = some b) (s : State) :
    exec (.tlmEnc v) s = .next (s.begin.push (.tlmByte b)) := by
  simp only [exec, execTlmEnc, h]

theorem exec_tlmEnc_of_none {v : Byte} (h : encodeChannel v = none) (s : State) :
    exec (.tlmEnc v) s = .refused .tlmRange := by
  simp only [exec, execTlmEnc, h]

theorem exec_tlmEncf_of_some {x y roll pitch b1 b2 : Byte} {bytes : List Byte}
    (h : encodeLanes [x, y, roll, pitch, b1, b2] = some bytes) (s : State) :
    exec (.tlmEncf x y roll pitch b1 b2) s = .next (s.begin.push (.tlmDatagram bytes)) := by
  simp only [exec, execTlmEncf, h]

theorem exec_tlmEncf_of_none {x y roll pitch b1 b2 : Byte}
    (h : encodeLanes [x, y, roll, pitch, b1, b2] = none) (s : State) :
    exec (.tlmEncf x y roll pitch b1 b2) s = .refused .tlmRange := by
  simp only [exec, execTlmEncf, h]

theorem exec_tlmDecf_of_some {datagram : List Byte} {f : Frame} (h : decodeFrame datagram = some f) (s : State) :
    exec (.tlmDecf datagram) s = .next (s.begin.push (.tlmFrame f)) := by
  simp only [exec, execTlmDecf, h]

theorem exec_tlmDecf_of_none {datagram : List Byte} (h : decodeFrame datagram = none) (s : State) :
    exec (.tlmDecf datagram) s = .refused .datagramLength := by
  simp only [exec, execTlmDecf, h]

/-! ### Totality -/

/-- An operation whose precondition holds completes. -/
theorem exec_completes {i : Instr} (legal : ¬Spec.preconditionViolated i) (s : State) :
    ∃ t, exec i s = .next t := by
  cases i
  case tlmEnc v =>
    obtain ⟨b, hb⟩ := Option.ne_none_iff_exists'.mp (mt (encodeChannel_eq_none_iff v).mp legal)
    exact ⟨_, exec_tlmEnc_of_some hb s⟩
  case tlmEncf x y roll pitch b1 b2 =>
    obtain ⟨bytes, hbytes⟩ := Option.ne_none_iff_exists'.mp (mt (encodeLanes_eq_none_iff _).mp legal)
    exact ⟨_, exec_tlmEncf_of_some hbytes s⟩
  case tlmDecf datagram =>
    obtain ⟨f, hf⟩ := Option.ne_none_iff_exists'.mp (mt (decodeFrame_eq_none_iff datagram).mp legal)
    exact ⟨_, exec_tlmDecf_of_some hf s⟩
  case evPins m a b =>
    simp only [exec, execEvPins]
    split <;> exact ⟨_, rfl⟩
  all_goals exact ⟨_, rfl⟩

/-- An operation whose precondition is violated is refused. -/
theorem exec_refused {i : Instr} (violated : Spec.preconditionViolated i) (s : State) :
    ∃ r, exec i s = .refused r := by
  cases i
  case tlmEnc v => exact ⟨_, exec_tlmEnc_of_none ((encodeChannel_eq_none_iff v).mpr violated) s⟩
  case tlmEncf x y roll pitch b1 b2 => exact ⟨_, exec_tlmEncf_of_none ((encodeLanes_eq_none_iff _).mpr violated) s⟩
  case tlmDecf datagram => exact ⟨_, exec_tlmDecf_of_none ((decodeFrame_eq_none_iff datagram).mpr violated) s⟩
  all_goals exact violated.elim

/-- No operation faults: there is no reason for a fault (R210). -/
theorem exec_ne_fault (i : Instr) (s : State) (r : Fault) : exec i s ≠ .fault r := nomatch r

/-- Settles O47: only the three telemetry operations with a precondition can be refused, and each is refused exactly
where its codec function has no result. -/
theorem operationsAreTotal : Obligations.OperationsAreTotal :=
  fun i s => ⟨fun legal => exec_completes legal s, fun violated => exec_refused violated s, exec_ne_fault i s⟩

end Sys2Proof.Machine
end

section
/-! SUPPORT. 30_encoding.md R73, R75 and R76: the classes of a command byte and of a telemetry channel byte.  What the
codec functions compute is said once, as numbers; the claims about the operations are read off from it. -/

namespace Sys2Proof.Machine

/-- An operation of a stateless unit puts one output out and leaves everything else as it was (R20, R227). -/
theorem begin_push (s : State) (o : Output) : s.begin.push o = { s with out := [o] } := rfl

/-! ### TLM.DEC's value (R76) -/

theorem exec_tlmDec (b : Byte) (s : State) :
    exec (.tlmDec b) s = .next { s with out := [.tlmValue (decodeChannel b)] } := rfl

/-- A byte with bit 7 clear is negated as a number. -/
theorem neg_toInt_of_lt {b : Byte} (h : b.toNat < 128) : (-b).toInt = -(b.toNat : Int) := by
  rw [BitVec.toInt_eq_toNat_cond, BitVec.toNat_neg]
  omega

/-- A byte of the class LOW is negated. -/
theorem decodeChannel_toInt_of_le {b : Byte} (low : b.toNat ≤ 8) : (decodeChannel b).toInt = -(b.toNat : Int) := by
  rw [decodeChannel, if_pos low, neg_toInt_of_lt (by omega)]

/-- A byte of the class HIGH is shifted down by four bits and negated. -/
theorem decodeChannel_toInt_of_gt {b : Byte} (high : 8 < b.toNat) :
    (decodeChannel b).toInt = -((b.toNat / 16 : Nat) : Int) := by
  have shifted : (b >>> 4).toNat = b.toNat / 16 := by simp [Nat.shiftRight_eq_div_pow]
  rw [decodeChannel, if_neg (by omega), neg_toInt_of_lt (by omega), shifted]

/-- Settles O1: the two classes are the two branches of `decodeChannel`. -/
theorem tlmDecodeByClass : Obligations.TlmDecodeByClass :=
  fun b s => ⟨decodeChannel b, exec_tlmDec b s, decodeChannel_toInt_of_le, decodeChannel_toInt_of_gt⟩

/-! ### TLM.ENC's byte (R75) -/

/-- A value of the lower half is negated, into the low nibble. -/
theorem neg_toNat_of_nonpos {v : Byte} (lower : -8 ≤ v.toInt) (nonpos : v.toInt ≤ 0) :
    ((-v).toNat : Int) = -v.toInt := by
  rw [BitVec.toInt_eq_toNat_cond] at *
  rw [BitVec.toNat_neg]
  omega

/-- A value of the upper half is shifted into the high nibble, and loses no bit. -/
theorem shiftLeft_toNat_of_pos {v : Byte} (pos : 0 < v.toInt) (upper : v.toInt ≤ 8) :
    ((v <<< 4).toNat : Int) = 16 * v.toInt := by
  rw [BitVec.toInt_eq_toNat_cond] at *
  rw [BitVec.toNat_shiftLeft, Nat.shiftLeft_eq]
  omega

/-- Whatever byte TLM.ENC produces, it is one of the table's, and the value is legal. -/
theorem encodeChannel_some {v b : Byte} (h : encodeChannel v = some b) :
    (-8 ≤ v.toInt ∧ v.toInt ≤ 0 ∧ (b.toNat : Int) = -v.toInt) ∨
    (0 < v.toInt ∧ v.toInt ≤ 8 ∧ (b.toNat : Int) = 16 * v.toInt) := by
  unfold encodeChannel at h
  split_ifs at h with outside zero neg <;> cases h
  · exact .inl ⟨by omega, by omega, by simp [zero]⟩
  · exact .inl ⟨by omega, by omega, neg_toNat_of_nonpos (by omega) (by omega)⟩
  · exact .inr ⟨by omega, by omega, shiftLeft_toNat_of_pos (by omega) (by omega)⟩

/-- A legal value has a byte. -/
theorem exists_encodeChannel_of_legal {v : Byte} (lower : -8 ≤ v.toInt) (upper : v.toInt ≤ 8) :
    ∃ b, encodeChannel v = some b :=
  Option.ne_none_iff_exists'.mp (mt (encodeChannel_eq_none_iff v).mp (by omega))

/-- A byte that TLM.ENC puts out is the one `encodeChannel` gives. -/
theorem encodeChannel_of_exec {v b : Byte} {s t : State} (h : exec (.tlmEnc v) s = .next t)
    (mem : Output.tlmByte b ∈ t.out) : encodeChannel v = some b := by
  cases hv : encodeChannel v with
  | none =>
    rw [exec_tlmEnc_of_none hv] at h
    cases h
  | some c =>
    rw [exec_tlmEnc_of_some hv] at h
    cases h
    obtain rfl : b = c := by simpa using mem
    rfl

/-- Settles O2: a legal value has a byte, and every byte is one of the table's. -/
theorem tlmEncodeTable : Obligations.TlmEncodeTable := by
  intro v s
  constructor
  · intro lower upper
    obtain ⟨b, hb⟩ := exists_encodeChannel_of_legal lower upper
    have table := encodeChannel_some hb
    refine ⟨b, ?_, fun nonpos => ?_, fun pos => ?_⟩
    · rw [exec_tlmEnc_of_some hb, begin_push]
    · omega
    · omega
  · intro t b h mem
    obtain ⟨lower, nonpos, value⟩ | ⟨pos, upper, value⟩ := encodeChannel_some (encodeChannel_of_exec h mem)
    · exact .inl (by omega)
    · exact .inr ⟨v.toInt.toNat, by omega, by omega, by omega⟩

/-! ### The class of a command byte (R73) -/

theorem decode_cmdByte (b : Byte) : decode ⟨.cmdByte, [b]⟩ = .ok (decodeCmdByte b) := rfl

theorem decodeCmdByte_of_msw {b : Byte} (h : isMsw b = true) :
    decodeCmdByte b = .cmdMsw (mswId b) (mswHigh6 b) := by
  simp only [decodeCmdByte, h, if_true]

theorem decodeCmdByte_of_lsw {b : Byte} (h : isMsw b = false) : decodeCmdByte b = .cmdLsw (lswLow7 b) := by
  simp only [decodeCmdByte, h, Bool.false_eq_true, if_false]

/-- Settles O59: `isMsw` is bit 7, and each class has the fields of its layout (R71, R72). -/
theorem commandByteClassIsBitSeven : Obligations.CommandByteClassIsBitSeven := fun b =>
  ⟨fun msw => (decode_cmdByte b).trans (congrArg Except.ok (decodeCmdByte_of_msw msw)),
    fun lsw => (decode_cmdByte b).trans (congrArg Except.ok (decodeCmdByte_of_lsw lsw))⟩

end Sys2Proof.Machine
end

section
/-! SUPPORT. 41_telemetry_codec.md R102: TLM.ENCF is TLM.ENC on every lane.  The relation between the values and the
bytes of a frame is said once, for a frame of any length. -/

namespace Sys2Proof.Machine

/-- The bytes of a frame are those of its values, lane by lane. -/
theorem encodeLanes_eq_some_iff {vs bs : List Byte} :
    encodeLanes vs = some bs ↔ List.Forall₂ (fun v b => encodeChannel v = some b) vs bs := by
  induction vs generalizing bs with
  | nil => simp [encodeLanes, eq_comm]
  | cons v vs ih =>
    rw [List.forall₂_cons_left_iff, encodeLanes]
    simp only [← ih]
    cases encodeChannel v <;> cases encodeLanes vs <;> simp [eq_comm]

/-- Legal values have a frame of as many bytes, and each byte is that of its value. -/
theorem exists_encodeLanes_of_legal {vs : List Byte} (legal : ∀ v ∈ vs, -8 ≤ v.toInt ∧ v.toInt ≤ 8) :
    ∃ bs, encodeLanes vs = some bs ∧ vs.length = bs.length ∧
      ∀ lane ∈ vs.zip bs, encodeChannel lane.1 = some lane.2 := by
  have inRange : ¬∃ v ∈ vs, v.toInt < -8 ∨ 8 < v.toInt := by
    rintro ⟨v, mem, outside⟩
    have := legal v mem
    omega
  obtain ⟨bs, hbs⟩ := Option.ne_none_iff_exists'.mp (mt (encodeLanes_eq_none_iff vs).mp inRange)
  obtain ⟨length, lanes⟩ := List.forall₂_iff_zip.mp (encodeLanes_eq_some_iff.mp hbs)
  exact ⟨bs, hbs, length, fun _ mem => lanes mem⟩

/-- TLM.ENC refuses only a value that has no byte. -/
theorem encodeChannel_eq_none_of_refused {v : Byte} {s : State} {r : Refusal}
    (h : exec (.tlmEnc v) s = .refused r) : encodeChannel v = none := by
  cases hv : encodeChannel v with
  | none => rfl
  | some b =>
    rw [exec_tlmEnc_of_some hv] at h
    cases h

/-- Settles O4: the frame's bytes are its lanes' bytes, and it is missing as soon as one lane's byte is. -/
theorem tlmEncodeFrameByLanes : Obligations.TlmEncodeFrameByLanes := by
  intro x y roll pitch b1 b2 s
  constructor
  · intro legal
    obtain ⟨bytes, hbytes, length, lanes⟩ := exists_encodeLanes_of_legal legal
    match bytes, length with
    | [c0, c1, c2, c3, c4, c5], _ =>
      exact ⟨c0, c1, c2, c3, c4, c5, exec_tlmEncf_of_some hbytes s,
        fun lane mem => exec_tlmEnc_of_some (lanes lane mem) s⟩
  · rintro ⟨v, mem, refused⟩
    have outside := (encodeChannel_eq_none_iff v).mp (encodeChannel_eq_none_of_refused refused)
    exact exec_tlmEncf_of_none ((encodeLanes_eq_none_iff _).mpr ⟨v, mem, outside⟩) s

end Sys2Proof.Machine
end

section
/-! SUPPORT. 42_quadrature_decoder.md R126: every sample is defined.  What phase a sample and a construction leave is
said once, by the pins they read. -/

namespace Sys2Proof.Machine

/-- The new code of a combo key is its low half (R81). -/
@[simp] theorem keyNew_comboKey (old new : BitVec 2) : keyNew (comboKey old new) = new :=
  BitVec.extractLsb'_append_eq_right

theorem exec_qdecSample (m : Motor) (s : State) : exec (.qdecSample m) s = .next (sampleRun m s.begin) := rfl

theorem exec_reset (a0 b0 a1 b1 : Bit) (s : State) :
    exec (.reset a0 b0 a1 b1) s = .next (construct a0 b0 a1 b1 s.draws s.begin) := rfl

/-- A sample adopts the code of its motor's pins, whatever phase it starts from (R122). -/
theorem sampleRun_qphase (m : Motor) (s : State) :
    ((sampleRun m s).chan m).qphase = phaseCode s.cfg.phaseMap ((s.chan m).encA ++ (s.chan m).encB) := by
  rw [sampleRun, decoderRun_chan]
  exact keyNew_comboKey _ _

/-- A construction derives both phases from the pin levels it is given (R240). -/
theorem construct_qphase (a0 b0 a1 b1 : Bit) (n : Nat) (s : State) :
    (construct a0 b0 a1 b1 n s).ch0.qphase = phaseCode s.cfg.phaseMap (a0 ++ b0) ∧
    (construct a0 b0 a1 b1 n s).ch1.qphase = phaseCode s.cfg.phaseMap (a1 ++ b1) := ⟨rfl, rfl⟩

/-- Settles O13: a sample and a construction always complete, and the phase each leaves is the code of the pins alone,
whatever phase stood before. -/
theorem sampleDefinedEverywhere : Obligations.SampleDefinedEverywhere := by
  constructor
  · intro m a b q s
    refine ⟨_, exec_qdecSample m _, ?_⟩
    rw [sampleRun_qphase]
    simp
  · intro a0 b0 a1 b1 s
    exact ⟨_, exec_reset a0 b0 a1 b1 s, construct_qphase a0 b0 a1 b1 s.draws s.begin⟩

end Sys2Proof.Machine
end

section
/-! SUPPORT. 43_motor_command_codec.md R141, R145 and R146: the exact next state of CMD.PACK, and of CMD.RX in each of
its three cases. -/

namespace Sys2Proof.Machine

/-! ### CMD.PACK -/

/-- CMD.PACK puts out both bytes with OVF, then the report of an overflow, and changes no register (R140, R212). -/
theorem exec_cmdPack (d : Word) (id : Bit) (s : State) :
    exec (.cmdPack d id) s =
      .next { s with
        out := .packed (packMsw s.cfg.ovfPolicy d id) (packLsw s.cfg.ovfPolicy d) (packOverflow d) ::
          if packOverflow d then [.status (.commandOverflow d)] else [] } :=
  congrArg Host.Outcome.next (packRun_eq s.begin d id)

/-- The two ends of the overflow condition are one bound on the magnitude (R141). -/
theorem packOverflow_iff (d : Word) : packOverflow d = true ↔ 2 ^ 13 ≤ |d.toInt| := by
  rw [packOverflow, decide_eq_true_iff, le_abs']
  norm_num

/-- Settles O20: the OVF that CMD.PACK puts out is `packOverflow`, whatever the policy. -/
theorem packOverflowExactly : Obligations.PackOverflowExactly :=
  fun d id s => ⟨_, _, _, _, exec_cmdPack d id s, packOverflow_iff d⟩

/-! ### CMD.RX -/

/-- An MSW writes the receiver's registers alone and emits nothing (R145). -/
theorem exec_cmdRx_of_msw {b : Byte} (h : isMsw b = true) (s : State) :
    exec (.cmdRx b) s =
      .next { s with rxMotor := mswId b, rxHigh6 := mswHigh6 b, rxState := .awaitingLsw, out := [] } :=
  congrArg Host.Outcome.next (receiveRun_msw s.begin b h)

/-- An LSW runs the receiver's step on its low bits, from an empty output. -/
theorem exec_cmdRx_of_lsw {b : Byte} (h : isMsw b = false) (s : State) :
    exec (.cmdRx b) s = .next (receiveLsw (lswLow7 b) s.begin) :=
  congrArg Host.Outcome.next (receiveRun_lsw s.begin b h)

/-- An LSW in AwaitingLSW completes the pair: it writes TARGET of the captured motor and emits once (R145 to R147). -/
theorem receiveLsw_begin_completes {s : State} (l : BitVec 7) (h : s.rxState = .awaitingLsw) :
    receiveLsw l s.begin =
      { s.setChan (motorOfBit s.rxMotor)
          { s.chan (motorOfBit s.rxMotor) with target := assemble s.cfg.unpackSignMode s.rxHigh6 l } with
        rxState := .awaitingMsw, out := [.emit s.rxMotor (assemble s.cfg.unpackSignMode s.rxHigh6 l)] } := by
  rw [receiveLsw_completes s.begin l h, begin_chan]
  cases hm : motorOfBit s.rxMotor <;> simp [State.begin, hm]

/-- An LSW in AwaitingMSW is discarded and emits nothing (R146). -/
theorem receiveLsw_begin_discards {s : State} (l : BitVec 7) (h : s.rxState = .awaitingMsw) :
    receiveLsw l s.begin = { s with out := [] } :=
  receiveLsw_discards s.begin l h

/-- Settles O22, by the three cases of a byte: an MSW, an LSW that completes a pair, a stray LSW. -/
theorem receiverStepsOnAByte : Obligations.ReceiverStepsOnAByte := by
  intro b s
  cases bit7 : b.getLsbD 7 with
  | true => exact ⟨_, exec_cmdRx_of_msw bit7 s, by simp [mswId, mswHigh6]⟩
  | false =>
    refine ⟨_, exec_cmdRx_of_lsw bit7 s, nofun, fun _ waiting => ?_, fun _ idle => ?_⟩
    · rw [receiveLsw_begin_completes _ waiting]
      simp [lswLow7]
    · exact receiveLsw_begin_discards _ idle

end Sys2Proof.Machine
end

section
/-! SUPPORT. 45_sequencer.md R192 and R198: USTEP never blocks, and where SEQ_PC stands after it. -/

namespace Sys2Proof.Machine

/-- USTEP completes in every state: it runs one micro-step from an empty output (R192). -/
theorem exec_ustep (s : State) : exec .ustep s = .next (ustepRun s.begin) := rfl

/-- Below the last position SEQ_PC moves on by one, without wrapping (R192). -/
theorem ustepRun_seqPc_val_of_lt {s : State} (inside : s.seqPc.val < 10) :
    (ustepRun s).seqPc.val = s.seqPc.val + 1 := by
  rw [ustepRun_seqPc]
  exact Fin.val_add_one_of_lt' (by omega)

/-- At the last position SEQ_PC wraps, and the pass starts again (R198). -/
theorem ustepRun_seqPc_val_of_last {s : State} (last : s.seqPc.val = 10) : (ustepRun s).seqPc.val = 0 := by
  have atLast : s.seqPc = Fin.last 10 := Fin.ext last
  rw [ustepRun_seqPc, atLast, Fin.last_add_one, Fin.val_zero]

/-- Settles O36: SEQ_PC counts modulo eleven, whatever the micro-step does. -/
theorem sequencerAlwaysSteps : Obligations.SequencerAlwaysSteps := fun s =>
  ⟨_, exec_ustep s, ustepRun_seqPc_val_of_lt (s := s.begin), ustepRun_seqPc_val_of_last (s := s.begin)⟩

end Sys2Proof.Machine
end

section
/-! SUPPORT. 30_encoding.md R70 to R82: decoding and encoding agree.  For each shape of a payload one `↔` says which
payloads decode and to what; both directions of the agreement are read off from it. -/

namespace Sys2Proof.Machine

/-! ### The shapes of a payload -/

theorem decodeOne_eq_ok_iff {op : Byte → Instr} {p : List Byte} {i : Instr} :
    decodeOne op p = .ok i ↔ ∃ b, p = [b] ∧ op b = i := by
  unfold decodeOne
  split <;> simp_all

theorem decodeNone_eq_ok_iff {op : Instr} {p : List Byte} {i : Instr} :
    decodeNone op p = .ok i ↔ p = [] ∧ op = i := by
  unfold decodeNone
  split <;> simp_all

theorem decodeMotor_eq_ok_iff {op : Motor → Instr} {p : List Byte} {i : Instr} :
    decodeMotor op p = .ok i ↔ ∃ m, p = [motorByte m] ∧ op m = i := by
  constructor
  · intro h
    unfold decodeMotor at h
    split at h
    next b =>
      cases hb : motorOfByte b with
      | error => simp [hb, Except.map] at h
      | ok m =>
        rw [hb] at h
        cases h
        exact ⟨m, by rw [motorByte_of_ok hb], rfl⟩
    next => cases h
  · rintro ⟨m, rfl, rfl⟩
    simp [decodeMotor, motorOfByte_motorByte, Except.map]

theorem decodeCommand_eq_ok_iff {op : Word → Bit → Instr} {p : List Byte} {i : Instr} :
    decodeCommand op p = .ok i ↔ ∃ d id, p = wordBytes d ++ [bitByte id] ∧ op d id = i := by
  constructor
  · intro h
    unfold decodeCommand at h
    split at h
    next hi lo b =>
      cases hb : bitOfByte b with
      | error => simp [hb, Except.map] at h
      | ok id =>
        rw [hb] at h
        cases h
        exact ⟨wordOfBytes hi lo, id, by rw [wordBytes_wordOfBytes, bitByte_of_ok hb]; rfl, rfl⟩
    next => cases h
  · rintro ⟨d, id, rfl, rfl⟩
    simp [decodeCommand, wordBytes, bitOfByte_bitByte, wordOfBytes_wordBytes, Except.map]

theorem decodePins_eq_ok_iff {op : Motor → Bit → Bit → Instr} {p : List Byte} {i : Instr} :
    decodePins op p = .ok i ↔ ∃ m a b, p = [motorByte m, bitByte a, bitByte b] ∧ op m a b = i := by
  constructor
  · intro h
    unfold decodePins at h
    split at h
    next =>
      split at h <;> cases h
      next m a b hm ha hb => exact ⟨m, a, b, by rw [motorByte_of_ok hm, bitByte_of_ok ha, bitByte_of_ok hb], rfl⟩
    next => cases h
  · rintro ⟨m, a, b, rfl, rfl⟩
    simp [decodePins, motorOfByte_motorByte, bitOfByte_bitByte]

theorem decodeReset_eq_ok_iff {p : List Byte} {i : Instr} :
    decodeReset p = .ok i ↔
      ∃ a0 b0 a1 b1, p = [bitByte a0, bitByte b0, bitByte a1, bitByte b1] ∧ .reset a0 b0 a1 b1 = i := by
  constructor
  · intro h
    unfold decodeReset at h
    split at h
    next =>
      split at h <;> cases h
      next a0 b0 a1 b1 ha0 hb0 ha1 hb1 =>
        exact ⟨a0, b0, a1, b1,
          by rw [bitByte_of_ok ha0, bitByte_of_ok hb0, bitByte_of_ok ha1, bitByte_of_ok hb1], rfl⟩
    next => cases h
  · rintro ⟨a0, b0, a1, b1, rfl, rfl⟩
    simp [decodeReset, bitOfByte_bitByte]

theorem decodeEncf_eq_ok_iff {p : List Byte} {i : Instr} :
    decodeEncf p = .ok i ↔
      ∃ x y roll pitch b1 b2, p = [x, y, roll, pitch, b1, b2] ∧ .tlmEncf x y roll pitch b1 b2 = i := by
  unfold decodeEncf
  split <;> simp_all

/-! ### The wire words -/

/-- An MSW is its fields (R71). -/
theorem mswByte_of_isMsw {b : Byte} (h : isMsw b = true) : mswByte (mswId b) (mswHigh6 b) = b := by
  revert b
  decide

/-- An LSW is its field (R72). -/
theorem lswByte_of_not_isMsw {b : Byte} (h : isMsw b = false) : lswByte (lswLow7 b) = b := by
  revert b
  decide

theorem encode_decodeCmdByte (b : Byte) : encode (decodeCmdByte b) = ⟨.cmdByte, [b]⟩ := by
  cases h : isMsw b
  · rw [decodeCmdByte_of_lsw h, encode, lswByte_of_not_isMsw h]
  · rw [decodeCmdByte_of_msw h, encode, mswByte_of_isMsw h]

theorem decodeCmdByte_mswByte (id : Bit) (hi6 : BitVec 6) : decodeCmdByte (mswByte id hi6) = .cmdMsw id hi6 := by
  rw [decodeCmdByte_of_msw (isMsw_mswByte id hi6), mswId_mswByte, mswHigh6_mswByte]

theorem decodeCmdByte_lswByte (lo7 : BitVec 7) : decodeCmdByte (lswByte lo7) = .cmdLsw lo7 := by
  rw [decodeCmdByte_of_lsw (isMsw_lswByte lo7), lswLow7_lswByte]

/-- A byte as a number, from its nibbles. -/
theorem nibbles_toNat (h l : BitVec 4) : (h ++ l : Byte).toNat = 16 * h.toNat + l.toNat := by
  rw [BitVec.toNat_append, Nat.shiftLeft_eq, Nat.mul_comm, ← Nat.two_pow_add_eq_or_of_lt l.isLt]

/-- A byte is its two nibbles. -/
theorem nibbles_append (b : Byte) : (b.extractLsb' 4 4 ++ b.extractLsb' 0 4 : Byte) = b := by
  apply BitVec.eq_of_toNat_eq
  rw [nibbles_toNat, BitVec.extractLsb'_toNat, BitVec.extractLsb'_toNat, Nat.shiftRight_eq_div_pow]
  omega

/-- A byte below sixteen is its low nibble. -/
theorem lowNibble_append {b : Byte} (h : b.toNat < 16) : (0x0#4 ++ b.extractLsb' 0 4 : Byte) = b := by
  apply BitVec.eq_of_toNat_eq
  rw [nibbles_toNat, BitVec.extractLsb'_toNat, BitVec.toNat_ofNat, Nat.shiftRight_zero]
  omega

theorem encode_decodeTlmByte (b : Byte) : encode (decodeTlmByte b) = ⟨.tlmByte, [b]⟩ := by
  unfold decodeTlmByte
  split_ifs with zero low
  · rw [encode, zero]
  · rw [encode, lowNibble_append (by omega)]
  · rw [encode, nibbles_append]

/-- The low nibble of a byte put together from two. -/
theorem lowNibble_nibbles (h l : BitVec 4) : (h ++ l : Byte).extractLsb' 0 4 = l :=
  BitVec.extractLsb'_append_eq_right

/-- The high nibble of a byte put together from two. -/
theorem highNibble_nibbles (h l : BitVec 4) : (h ++ l : Byte).extractLsb' 4 4 = h :=
  BitVec.extractLsb'_append_eq_left

theorem decodeTlmByte_low {m : BitVec 4} (lower : 1 ≤ m.toNat) (upper : m.toNat ≤ 8) :
    decodeTlmByte (0x0#4 ++ m) = .tlmLow m := by
  have value : (0x0#4 ++ m : Byte).toNat = m.toNat := by simp [nibbles_toNat]
  have nonzero : (0x0#4 ++ m : Byte) ≠ 0x00#8 := fun h => by
    rw [h, BitVec.toNat_ofNat] at value
    omega
  rw [decodeTlmByte, if_neg nonzero, if_pos (by omega), lowNibble_nibbles]

theorem decodeTlmByte_high {h x : BitVec 4} (above : 8 < 16 * h.toNat + x.toNat) :
    decodeTlmByte (h ++ x) = .tlmHigh h x := by
  rw [← nibbles_toNat] at above
  have nonzero : (h ++ x : Byte) ≠ 0x00#8 := fun zero => by
    rw [zero, BitVec.toNat_ofNat] at above
    omega
  rw [decodeTlmByte, if_neg nonzero, if_neg (by omega), highNibble_nibbles, lowNibble_nibbles]

theorem encode_decodeKey (m : Motor) (key : BitVec 4) : encode (decodeKey m key) = ⟨.qdecKey m, [0x0#4 ++ key]⟩ := by
  cases m <;> revert key <;> decide

/-- A combo key in one byte decodes to its row. -/
theorem decodeKeyByte_key (m : Motor) (key : BitVec 4) : decodeKeyByte m [0x0#4 ++ key] = .ok (decodeKey m key) := by
  have small : (0x0#4 ++ key : Byte).toNat < 16 := by
    rw [nibbles_toNat, BitVec.toNat_ofNat]
    omega
  rw [decodeKeyByte, if_pos small, lowNibble_nibbles]

theorem decodeKeyByte_eq_ok_iff {m : Motor} {p : List Byte} {i : Instr} :
    decodeKeyByte m p = .ok i ↔ ∃ key, p = [0x0#4 ++ key] ∧ decodeKey m key = i := by
  constructor
  · intro h
    unfold decodeKeyByte at h
    split at h
    next k =>
      split_ifs at h with small
      cases h
      exact ⟨k.extractLsb' 0 4, by rw [lowNibble_append small], rfl⟩
    next => cases h
  · rintro ⟨key, rfl, rfl⟩
    exact decodeKeyByte_key m key

/-! ### The agreement -/

/-- Settles O57: by the row of the opcode table.  The operand layouts give back their operands; a wire word's class is
found again from its byte, which for TLM_LOW and TLM_HIGH needs the row's own bound. -/
theorem decodeOfEncode : Obligations.DecodeOfEncode := by
  intro i legal
  cases i
  case tlmEnc | tlmDec | tlmEncf | tlmDecf | cmdRx | evRxbyte | ustep | pass | tlmZero => rfl
  case qdecSample m | servoStep m => exact decodeMotor_eq_ok_iff.mpr ⟨m, rfl, rfl⟩
  case cmdPack d id | cmdSend d id => exact decodeCommand_eq_ok_iff.mpr ⟨d, id, rfl, rfl⟩
  case evPin m a b | evPins m a b => exact decodePins_eq_ok_iff.mpr ⟨m, a, b, rfl, rfl⟩
  case reset a0 b0 a1 b1 => exact decodeReset_eq_ok_iff.mpr ⟨a0, b0, a1, b1, rfl, rfl⟩
  case cmdMsw id hi6 => exact congrArg Except.ok (decodeCmdByte_mswByte id hi6)
  case cmdLsw lo7 => exact congrArg Except.ok (decodeCmdByte_lswByte lo7)
  case tlmLow m =>
    simp only [Instr.wf, Bool.and_eq_true, decide_eq_true_eq] at legal
    obtain ⟨lower, upper⟩ := legal
    exact congrArg Except.ok (decodeTlmByte_low lower upper)
  case tlmHigh h x => exact congrArg Except.ok (decodeTlmByte_high (of_decide_eq_true legal))
  all_goals rfl

/-- Settles O58: by the port.  Each port's payload is the layout of the operands it decodes to. -/
theorem encodeOfDecode : Obligations.EncodeOfDecode := by
  rintro ⟨port, p⟩ i h
  cases port
  case tlmDecf =>
    cases h
    rfl
  case tlmEnc | tlmDec | cmdRx | evRxbyte =>
    obtain ⟨b, rfl, rfl⟩ := decodeOne_eq_ok_iff.mp h
    rfl
  case tlmEncf =>
    obtain ⟨x, y, roll, pitch, b1, b2, rfl, rfl⟩ := decodeEncf_eq_ok_iff.mp h
    rfl
  case qdecSample | servoStep =>
    obtain ⟨m, rfl, rfl⟩ := decodeMotor_eq_ok_iff.mp h
    rfl
  case cmdPack | cmdSend =>
    obtain ⟨d, id, rfl, rfl⟩ := decodeCommand_eq_ok_iff.mp h
    rfl
  case evPin | evPins =>
    obtain ⟨m, a, b, rfl, rfl⟩ := decodePins_eq_ok_iff.mp h
    rfl
  case ustep | pass =>
    obtain ⟨rfl, rfl⟩ := decodeNone_eq_ok_iff.mp h
    rfl
  case reset =>
    obtain ⟨a0, b0, a1, b1, rfl, rfl⟩ := decodeReset_eq_ok_iff.mp h
    rfl
  case cmdByte =>
    obtain ⟨b, rfl, rfl⟩ := decodeOne_eq_ok_iff.mp h
    exact encode_decodeCmdByte b
  case tlmByte =>
    obtain ⟨b, rfl, rfl⟩ := decodeOne_eq_ok_iff.mp h
    exact encode_decodeTlmByte b
  case qdecKey m =>
    obtain ⟨key, rfl, rfl⟩ := decodeKeyByte_eq_ok_iff.mp h
    exact encode_decodeKey m key

/-- Settles O60: the decoder computes each word. -/
theorem writtenWordsDecode : Obligations.WrittenWordsDecode := ⟨rfl, rfl, rfl, rfl, rfl, rfl, rfl⟩

end Sys2Proof.Machine
end

section
/-! SUPPORT. 41_telemetry_codec.md R103 to R105, 60_exceptions.md R227: the telemetry codec on whole frames and there
and back, and the stateless units.  The values are said as numbers, by what `decodeChannel` makes of a byte. -/

namespace Sys2Proof.Machine

/-- Settles O3: a value outside the range has no byte. -/
theorem tlmEncodeRefusesOutOfRange : Obligations.TlmEncodeRefusesOutOfRange :=
  fun v s outside => exec_tlmEnc_of_none ((encodeChannel_eq_none_iff v).mpr outside) s

/-! ### The byte classes (R76) -/

theorem exec_tlmLow (m : BitVec 4) (s : State) :
    exec (.tlmLow m) s = .next { s with out := [.tlmValue (decodeChannel (0x0#4 ++ m))] } := rfl

theorem exec_tlmHigh (h x : BitVec 4) (s : State) :
    exec (.tlmHigh h x) s = .next { s with out := [.tlmValue (decodeChannel (h ++ x))] } := rfl

/-- Settles O8: the byte of a class, as a number, is in the class of TLM.DEC with the same name. -/
theorem telemetryWordClasses : Obligations.TelemetryWordClasses := by
  refine fun s => ⟨rfl, fun m _ upper => ⟨_, exec_tlmLow m s, ?_⟩, fun h x above => ⟨_, exec_tlmHigh h x s, ?_⟩⟩
  · have value : (0x0#4 ++ m : Byte).toNat = m.toNat := by simp [nibbles_toNat]
    rw [decodeChannel_toInt_of_le (by omega), value]
  · rw [← nibbles_toNat] at above
    have high : (h ++ x : Byte).toNat / 16 = h.toNat := by
      rw [nibbles_toNat]
      omega
    rw [decodeChannel_toInt_of_gt above, high]

/-! ### TLM.DECF by lanes (R103) -/

/-- Negating a decoded value wraps nowhere: TLM.DEC gives no value below −15. -/
theorem neg_decodeChannel_toInt (b : Byte) : (-(decodeChannel b)).toInt = -(decodeChannel b).toInt := by
  apply BitVec.toInt_neg_of_ne_intMin
  intro least
  have value : (decodeChannel b).toInt = -128 := by rw [least]; rfl
  rcases Nat.lt_or_ge 8 b.toNat with high | low
  · rw [decodeChannel_toInt_of_gt high] at value
    omega
  · rw [decodeChannel_toInt_of_le low] at value
    omega

/-- Settles O5: lane by lane the value that TLM.DEC gives, with two lanes negated. -/
theorem tlmDecodeFrame : Obligations.TlmDecodeFrame := by
  intro datagram s
  constructor
  · intro six
    match datagram, six with
    | [c0, c1, c2, c3, c4, c5], _ =>
      refine ⟨![c0, c1, c2, c3, c4, c5], fun k => decodeChannel (![c0, c1, c2, c3, c4, c5] k), _, by simp,
        fun k => exec_tlmDec _ s, exec_tlmDecf_of_some rfl s, ?_⟩
      exact ⟨rfl, neg_decodeChannel_toInt c1, neg_decodeChannel_toInt c2, rfl, rfl, rfl⟩
  · exact fun notSix => exec_tlmDecf_of_none ((decodeFrame_eq_none_iff datagram).mpr notSix) s

/-! ### There and back (R104, R105) -/

/-- TLM.DEC of TLM.ENC's byte has lost the sign: the two halves of the range share their values. -/
theorem decodeChannel_of_encodeChannel {v b : Byte} (h : encodeChannel v = some b) :
    (decodeChannel b).toInt = -|v.toInt| := by
  obtain ⟨lower, nonpos, value⟩ | ⟨pos, upper, value⟩ := encodeChannel_some h
  · rw [decodeChannel_toInt_of_le (by omega), abs_of_nonpos nonpos, value]
  · rw [decodeChannel_toInt_of_gt (by omega), abs_of_pos pos]
    omega

/-- The lanes that TLM.DECF negates come back as the magnitude. -/
theorem neg_decodeChannel_of_encodeChannel {v b : Byte} (h : encodeChannel v = some b) :
    (-(decodeChannel b)).toInt = |v.toInt| := by
  rw [neg_decodeChannel_toInt, decodeChannel_of_encodeChannel h, neg_neg]

/-- Settles O6: a legal value has a byte, and decoding it loses the sign. -/
theorem channelRoundTrip : Obligations.ChannelRoundTrip := by
  intro v s lower upper
  obtain ⟨b, hb⟩ := exists_encodeChannel_of_legal lower upper
  exact ⟨b, _, exec_tlmEnc_of_some hb s, exec_tlmDec b s, decodeChannel_of_encodeChannel hb⟩

/-- Settles O7: the round trip of a channel on every lane, two of them negated. -/
theorem frameRoundTrip : Obligations.FrameRoundTrip := by
  intro x y roll pitch b1 b2 s legal
  obtain ⟨bytes, hbytes, length, lanes⟩ := exists_encodeLanes_of_legal legal
  match bytes, length with
  | [c0, c1, c2, c3, c4, c5], _ =>
    simp only [List.zip_cons_cons, List.zip_nil_right, List.forall_mem_cons] at lanes
    obtain ⟨h0, h1, h2, h3, h4, h5, -⟩ := lanes
    exact ⟨_, _, exec_tlmEncf_of_some hbytes s, exec_tlmDecf_of_some rfl s, decodeChannel_of_encodeChannel h0,
      neg_decodeChannel_of_encodeChannel h1, neg_decodeChannel_of_encodeChannel h2,
      decodeChannel_of_encodeChannel h3, decodeChannel_of_encodeChannel h4, decodeChannel_of_encodeChannel h5⟩

/-! ### The stateless units (R20, R227) -/

/-- A stateless unit that completes puts out a list that only its operands and OVF_POLICY determine. -/
theorem exec_stateless {i : Instr} {s s' t : State}
    (unit : (∃ v, i = .tlmEnc v) ∨ (∃ b, i = .tlmDec b) ∨
      (∃ x y roll pitch b1 b2, i = .tlmEncf x y roll pitch b1 b2) ∨ (∃ datagram, i = .tlmDecf datagram) ∨
      (∃ d id, i = .cmdPack d id))
    (policy : s'.cfg.ovfPolicy = s.cfg.ovfPolicy) (h : exec i s = .next t) :
    ∃ o, t = { s with out := o } ∧ exec i s' = .next { s' with out := o } := by
  rcases unit with ⟨v, rfl⟩ | ⟨b, rfl⟩ | ⟨x, y, roll, pitch, b1, b2, rfl⟩ | ⟨datagram, rfl⟩ | ⟨d, id, rfl⟩
  · cases hv : encodeChannel v with
    | none => simp [exec_tlmEnc_of_none hv] at h
    | some b =>
      rw [exec_tlmEnc_of_some hv] at h
      cases h
      exact ⟨_, rfl, exec_tlmEnc_of_some hv s'⟩
  · cases h
    exact ⟨_, rfl, exec_tlmDec b s'⟩
  · cases hbytes : encodeLanes [x, y, roll, pitch, b1, b2] with
    | none => simp [exec_tlmEncf_of_none hbytes] at h
    | some bytes =>
      rw [exec_tlmEncf_of_some hbytes] at h
      cases h
      exact ⟨_, rfl, exec_tlmEncf_of_some hbytes s'⟩
  · cases hf : decodeFrame datagram with
    | none => simp [exec_tlmDecf_of_none hf] at h
    | some f =>
      rw [exec_tlmDecf_of_some hf] at h
      cases h
      exact ⟨_, rfl, exec_tlmDecf_of_some hf s'⟩
  · rw [exec_cmdPack] at h
    cases h
    refine ⟨_, rfl, ?_⟩
    rw [exec_cmdPack, policy]

/-- Settles O9: the list that a stateless unit puts out is the only thing it leaves behind. -/
theorem statelessUnitsTouchNothing : Obligations.StatelessUnitsTouchNothing := by
  intro i s s' t unit policy h
  obtain ⟨o, rfl, same⟩ := exec_stateless unit policy h
  exact ⟨rfl, same⟩

end Sys2Proof.Machine
end

section
/-! SUPPORT. 30_encoding.md R79 to R82, 42_quadrature_decoder.md R121 to R129: the phase maps, the step table, and what
a decoder step does.  A sample and a combo word are one `decoderRun`; its exact next state is said once. -/

namespace Sys2Proof.Machine

/-! ### The phase maps (R79, R121) -/

theorem phaseCode_injective (map : PhaseMap) : Function.Injective (phaseCode map) := by
  unfold Function.Injective
  cases map <;> decide

theorem phaseCode_surjective (map : PhaseMap) : Function.Surjective (phaseCode map) := by
  unfold Function.Surjective
  cases map <;> decide

/-- Codes that follow each other come from pin words that differ in one bit. -/
theorem phaseCode_gray (map : PhaseMap) (g g' : BitVec 2) (next : phaseCode map g' = phaseCode map g + 1#2) :
    g ^^^ g' = 1#2 ∨ g ^^^ g' = 2#2 := by
  revert g g'
  cases map <;> decide

/-- A double skip moves both pins, and moving both pins is one. -/
theorem phaseCode_doubleSkip_iff (map : PhaseMap) (g g' : BitVec 2) :
    phaseCode map g' = phaseCode map g + 2#2 ↔ g ^^^ g' = 3#2 := by
  revert g g'
  cases map <;> decide

/-- Under a Gray injection, opposite pin words have opposite codes: every other pair of codes is adjacent or equal. -/
theorem opposite_of_gray {f : BitVec 2 → BitVec 2} (inj : Function.Injective f)
    (gray : ∀ g g' : BitVec 2, f g' = f g + 1#2 → g ^^^ g' = 1#2 ∨ g ^^^ g' = 2#2) (g : BitVec 2) :
    f (g ^^^ 3#2) = f g + 2#2 := by
  have far : g ^^^ 3#2 ≠ g ∧ g ^^^ (g ^^^ 3#2) = 3#2 ∧ (g ^^^ 3#2) ^^^ g = 3#2 := by revert g; decide
  obtain ⟨ne, forth, back⟩ := far
  have distinct : f (g ^^^ 3#2) ≠ f g := fun h => ne (inj h)
  have up : f (g ^^^ 3#2) ≠ f g + 1#2 := fun h => absurd (gray _ _ h) (by rw [forth]; decide)
  have down : f g ≠ f (g ^^^ 3#2) + 1#2 := fun h => absurd (gray _ _ h) (by rw [back]; decide)
  revert distinct up down
  generalize f (g ^^^ 3#2) = c'
  generalize f g = c
  revert c c'
  decide

/-- The codes of the pin words 0 and 1 determine a legal map, and every adjacent pair of codes has one. -/
theorem exists_phaseMap {c d : BitVec 2} (distinct : d ≠ c) (notOpposite : d ≠ c + 2#2) :
    ∃ map ∈ ([.g0, .g1, .g2, .g3, .g4, .g5, .g6, .g7] : List PhaseMap),
      phaseCode map 0#2 = c ∧ phaseCode map 1#2 = d ∧ phaseCode map 2#2 = d + 2#2 ∧ phaseCode map 3#2 = c + 2#2 := by
  revert c d
  decide

/-- A function on pin words is known by its four values. -/
theorem ext_pinWords {f h : BitVec 2 → BitVec 2} (h0 : f 0#2 = h 0#2) (h1 : f 1#2 = h 1#2) (h2 : f 2#2 = h 2#2)
    (h3 : f 3#2 = h 3#2) (g : BitVec 2) : f g = h g := by
  have four : g = 0#2 ∨ g = 1#2 ∨ g = 2#2 ∨ g = 3#2 := by revert g; decide
  rcases four with rfl | rfl | rfl | rfl <;> assumption

/-- A Gray injection is one of the eight legal maps. -/
theorem exists_phaseMap_of_gray {f : BitVec 2 → BitVec 2} (inj : Function.Injective f)
    (gray : ∀ g g' : BitVec 2, f g' = f g + 1#2 → g ^^^ g' = 1#2 ∨ g ^^^ g' = 2#2) :
    ∃ map, ∀ g, f g = phaseCode map g := by
  have opposite0 : f 3#2 = f 0#2 + 2#2 := opposite_of_gray inj gray 0#2
  have opposite1 : f 2#2 = f 1#2 + 2#2 := opposite_of_gray inj gray 1#2
  have distinct : f 1#2 ≠ f 0#2 := fun h => absurd (inj h) (by decide)
  have notOpposite : f 1#2 ≠ f 0#2 + 2#2 := fun h => absurd (inj (h.trans opposite0.symm)) (by decide)
  obtain ⟨map, -, h0, h1, h2, h3⟩ := exists_phaseMap distinct notOpposite
  exact ⟨map, ext_pinWords h0.symm h1.symm (opposite1.trans h2.symm) (opposite0.trans h3.symm)⟩

/-- Settles O10: a Gray injection sends opposite pin words to opposite codes, so two adjacent codes determine it, and
the eight choices are the eight maps. -/
theorem phaseMapsAreTheGrayBijections : Obligations.PhaseMapsAreTheGrayBijections := by
  refine ⟨fun f => ⟨?_, fun ⟨bijective, gray⟩ => exists_phaseMap_of_gray bijective.injective gray⟩, by decide,
    phaseCode_doubleSkip_iff, rfl⟩
  rintro ⟨map, same⟩
  obtain rfl : f = phaseCode map := funext same
  exact ⟨⟨phaseCode_injective map, phaseCode_surjective map⟩, phaseCode_gray map⟩

/-! ### The step table (R82) -/

/-- Settles O11: the table is finite, sixteen keys. -/
theorem qstepTable : Obligations.QstepTable := by
  refine ⟨?_, ?_, ?_⟩ <;> decide

/-- A sample's key steps as the closed form says. -/
theorem qstep_comboKey (old new : BitVec 2) : qstep (comboKey old new) = Spec.closedStep old new :=
  have ⟨_, _, closed⟩ := qstepTable
  closed old new

@[simp] theorem keyOld_comboKey (old new : BitVec 2) : keyOld (comboKey old new) = old :=
  BitVec.extractLsb'_append_eq_left

theorem isDoubleSkip_comboKey (old new : BitVec 2) : isDoubleSkip (comboKey old new) = decide (new = old + 2#2) := by
  rw [isDoubleSkip, keyNew_comboKey, keyOld_comboKey]
  exact Bool.beq_eq_decide_eq _ _

/-- A report needs STICKY_FLAG and a double skip (R125, R213). -/
theorem resyncReported_eq (report : EncoderFaultReport) (key : BitVec 4) :
    resyncReported report key = (decide (report = .stickyFlag) && isDoubleSkip key) := by
  cases report <;> rfl

/-! ### A decoder step (R122, R123, R125) -/

/-- A state with the two channels of `s` has them whatever its other fields hold. -/
@[simp] theorem chan_mk (s : State) (m : Motor) (cfg : Config) (rx : RxState) (id : Bit) (hi : BitVec 6) (latch : Byte)
    (flag : Bool) (pc : Fin 11) (hit : Bool) (o : List Output) (a : List Delivery) (n : Nat) :
    (State.mk cfg s.ch0 s.ch1 rx id hi latch flag pc hit o a n).chan m = s.chan m := by
  cases m <;> rfl

/-- What a decoder step leaves, from an empty output: its motor's decoder registers, and the report. -/
theorem decoderRun_begin (m : Motor) (key : BitVec 4) (s : State) :
    decoderRun m key s.begin =
      { s.setChan m
          { s.chan m with
            qpos := BitVec.ofInt 16 ((s.chan m).qpos.toInt + qstep key)
            qphase := keyNew key
            encResync := (s.chan m).encResync || resyncReported s.cfg.encoderFaultReport key } with
        out := if resyncReported s.cfg.encoderFaultReport key then [.status (.encoderResync m)] else [] } := by
  rw [decoderRun_eq]
  cases m <;> rfl

/-- Settles O12: a sample is the decoder step of the key that it forms. -/
theorem sampleStepsTheDecoder : Obligations.SampleStepsTheDecoder := by
  intro m s c new resync
  have key : sampleKey m s.begin = comboKey c.qphase new := by simp [sampleKey, pinRead, pinWord, c, new]
  have report : resyncReported s.cfg.encoderFaultReport (comboKey c.qphase new) = resync := by
    rw [resyncReported_eq, isDoubleSkip_comboKey]
  rw [exec_qdecSample, sampleRun, key, decoderRun_begin, report, qstep_comboKey, keyNew_comboKey]

/-! ### The combo words (R82; log 12) -/

/-- A combo word runs the decoder step of its own row's key. -/
theorem exec_comboRow {row : (Motor → Instr) × BitVec 2 × BitVec 2 × Int} (mem : row ∈ Spec.comboRows) (m : Motor)
    (s : State) : exec (row.1 m) s = .next (decoderRun m (comboKey row.2.1 row.2.2.1) s.begin) := by
  simp only [Spec.comboRows, List.cons_append, List.nil_append, List.mem_cons, List.not_mem_nil, or_false] at mem
  rcases mem with rfl | rfl | rfl | rfl | rfl | rfl | rfl | rfl | rfl | rfl | rfl | rfl | rfl | rfl | rfl | rfl <;> rfl

/-- Settles O14: the decoder step of the row's key, whose step and double skips the table gives. -/
theorem comboWordsStepTheDecoder : Obligations.ComboWordsStepTheDecoder := by
  intro m s row mem c resync
  obtain ⟨steps, skips, -⟩ := qstepTable
  have report : resyncReported s.cfg.encoderFaultReport (comboKey row.2.1 row.2.2.1) = resync := by
    rw [resyncReported_eq]
    exact congrArg _ (Bool.eq_iff_iff.mpr ((skips _).trans decide_eq_true_iff.symm))
  have step : qstep (comboKey row.2.1 row.2.2.1) = row.2.2.2 := steps row mem
  rw [exec_comboRow mem, decoderRun_begin, report, step, keyNew_comboKey]

/-- Every combo key decodes to the word of a row with that key. -/
theorem exists_comboRow (m : Motor) (old new : BitVec 2) :
    ∃ row ∈ Spec.comboRows, row.2.1 = old ∧ row.2.2.1 = new ∧ decodeKey m (comboKey old new) = row.1 m := by
  cases m <;> revert old new <;> decide

/-- Settles O15: the key that a sample forms decodes to the word of its row, which runs the same decoder step. -/
theorem sampleRunsItsComboWord : Obligations.SampleRunsItsComboWord := by
  intro m s
  refine ⟨_, decodeKeyByte_key m _, ?_⟩
  obtain ⟨row, mem, old, new, word⟩ :=
    exists_comboRow m (s.chan m).qphase (phaseCode s.cfg.phaseMap ((s.chan m).encA ++ (s.chan m).encB))
  rw [comboKey] at word
  rw [word, exec_comboRow mem, old, new, exec_qdecSample, sampleRun]
  simp [sampleKey, pinRead, pinWord]

/-! ### Samples (R128, R129) -/

theorem closedStep_self (c : BitVec 2) : Spec.closedStep c c = 0 := by
  revert c
  decide

/-- Settles O16: the key of the same code twice steps by 0 and is no double skip. -/
theorem sampleWithoutMovementIsANoOp : Obligations.SampleWithoutMovementIsANoOp := by
  intro m s still
  rw [sampleStepsTheDecoder m s, still, closedStep_self]
  cases m <;> simp

/-- What a delivered and sampled pin pair leaves of its motor's decoder. -/
theorem runOps_pin_sample (m : Motor) (a b : Bit) (s : State) : ∃ t,
    runOps [.evPin m a b, .qdecSample m] s = .next t ∧ t.cfg = s.cfg ∧
    (t.chan m).qpos = BitVec.ofInt 16 ((s.chan m).qpos.toInt +
      Spec.closedStep (s.chan m).qphase (phaseCode s.cfg.phaseMap (a ++ b))) ∧
    (t.chan m).qphase = phaseCode s.cfg.phaseMap (a ++ b) := by
  have sample := sampleStepsTheDecoder m (raisePin m a b s.begin)
  refine ⟨_, (runOps_cons s _ _ rfl).trans (runOps_cons _ _ [] sample), ?_⟩
  simp [raisePin]

/-- Two moves of QPOS, each wrapped, are one move by their sum, wrapped (R9). -/
theorem ofInt_ofInt_add (x y z : Int) :
    BitVec.ofInt 16 ((BitVec.ofInt 16 (x + y)).toInt + z) = BitVec.ofInt 16 (x + (y + z)) := by
  rw [BitVec.ofInt_add, BitVec.ofInt_toInt, ← BitVec.ofInt_add, add_assoc]

/-- Settles O17, by induction on the pin pairs: each moves QPOS by its own step, and the moves add up modulo 2^16. -/
theorem samplesCountForwardMinusBackward : Obligations.SamplesCountForwardMinusBackward := by
  intro m pins
  induction pins with
  | nil => exact fun s => ⟨s, rfl, by simp [Spec.netSteps], rfl⟩
  | cons pin pins ih =>
    intro s
    obtain ⟨t, first, cfg, qpos, qphase⟩ := runOps_pin_sample m pin.1 pin.2 s
    obtain ⟨u, rest, qpos', qphase'⟩ := ih t
    refine ⟨u, ?_, ?_, ?_⟩
    · rw [List.flatMap_cons, runOps_append _ _ _ first, rest]
    · rw [qpos', qpos, qphase, cfg, ofInt_ofInt_add]
      rfl
    · rw [qphase', qphase, cfg]
      rfl

/-! ### The report (R213) -/

/-- Settles O18: the sample's report and its ENC_RESYNC are both guarded by the setting, as is the read. -/
theorem resyncIsReportedOnlyWithStickyFlag : Obligations.ResyncIsReportedOnlyWithStickyFlag := by
  intro m s
  refine ⟨_, sampleStepsTheDecoder m s, fun off => ?_, fun sticky => ?_⟩
  · refine ⟨by simp [off], ?_, fun n => ⟨encResyncOut_off s n off, encResyncOut_off _ n ?_⟩⟩
    · simp [off]
    · simp [off]
  · refine ⟨by simp [sticky], ?_, ?_, fun n => ⟨encResyncOut_stickyFlag s n sticky, fun other => ?_⟩⟩
    · rw [chan_mk, chan_setChan_same, Bool.or_eq_true, Bool.and_eq_true, decide_eq_true_iff, decide_eq_true_iff]
      simp [sticky]
    · exact encResyncOut_stickyFlag _ m (by simp [sticky])
    · rw [encResyncOut_stickyFlag s n sticky, encResyncOut_stickyFlag _ n (by simp [sticky])]
      rw [chan_mk, chan_setChan_other s _ other]

end Sys2Proof.Machine
end

section
/-! SUPPORT. 43_motor_command_codec.md R140 to R150, 60_exceptions.md R211: the packer's field and the receiver's value
as numbers, and the receiver over sequences of bytes. -/

namespace Sys2Proof.Machine

/-! ### The packer's field (R140, R142, R143) -/

/-- The delta that CMD.PACK sends: on overflow the policy's. -/
def sentDelta (policy : OvfPolicy) (d : Word) : Word :=
  if packOverflow d then overflowDelta policy d else d

theorem packField_eq (policy : OvfPolicy) (d : Word) : packField policy d = field13 (sentDelta policy d) := rfl

theorem packOverflow_eq (d : Word) : packOverflow d = decide (d.toInt ≤ -8192 ∨ 8192 ≤ d.toInt) := rfl

/-- Inside the limits a delta does not overflow. -/
theorem packOverflow_of_inside {d : Word} (lower : -8191 ≤ d.toInt) (upper : d.toInt ≤ 8191) :
    packOverflow d = false := by
  rw [packOverflow_eq, decide_eq_false_iff_not]
  omega

theorem sentDelta_of_inside {policy : OvfPolicy} {d : Word} (lower : -8191 ≤ d.toInt) (upper : d.toInt ≤ 8191) :
    sentDelta policy d = d := by
  simp [sentDelta, packOverflow_of_inside lower upper]

/-- The delta that is sent: clamped on overflow under CLAMP_AND_FLAG, and unchanged otherwise. -/
theorem sentDelta_toInt (policy : OvfPolicy) (d : Word) :
    (sentDelta policy d).toInt =
      if packOverflow d = true ∧ policy = .clampAndFlag then (if d.toInt < 0 then -8191 else 8191) else d.toInt := by
  cases policy
  · rw [sentDelta, overflowDelta]
    split_ifs with overflow negative <;> simp_all
  · simp [sentDelta, overflowDelta]

/-- The packed field is the sent delta modulo 2^13. -/
theorem packField_toNat (policy : OvfPolicy) (d : Word) :
    ((packField policy d).toNat : Int) = (sentDelta policy d).toInt % 8192 := by
  rw [packField_eq, field13_toNat]

theorem packMsw_toNat (policy : OvfPolicy) (d : Word) (id : Bit) :
    (packMsw policy d id).toNat = 128 + 64 * id.toNat + (packField policy d).toNat / 128 := by
  rw [packMsw, mswByte_toNat, fieldHigh6_toNat]

theorem packLsw_toNat (policy : OvfPolicy) (d : Word) :
    (packLsw policy d).toNat = (packField policy d).toNat % 128 := by
  rw [packLsw, lswByte_toNat, fieldLow7_toNat]

/-- Settles O19: the two bytes are the parts of the field, which is the sent delta modulo 2^13. -/
theorem packCommand : Obligations.PackCommand := by
  intro d id s ovf sent f
  have sent_eq : (sentDelta s.cfg.ovfPolicy d).toInt = sent := sentDelta_toInt _ _
  have field : (packField s.cfg.ovfPolicy d).toNat = f := by
    have := packField_toNat s.cfg.ovfPolicy d
    rw [sent_eq] at this
    omega
  refine ⟨_, _, ?_, ?_, exec_cmdPack d id s⟩
  · rw [packMsw_toNat, field]
  · rw [packLsw_toNat, field]

/-- Without overflow CMD.PACK puts out its two bytes alone. -/
theorem exec_cmdPack_of_inside {d : Word} (lower : -8191 ≤ d.toInt) (upper : d.toInt ≤ 8191) (id : Bit) (s : State) :
    exec (.cmdPack d id) s =
      .next { s with out := [.packed (packMsw s.cfg.ovfPolicy d id) (packLsw s.cfg.ovfPolicy d) false] } := by
  rw [exec_cmdPack, packOverflow_of_inside lower upper]
  rfl

/-- Adding 2^13 to a negative delta does not wrap. -/
theorem add_8192_toInt {d : Word} (lower : -8191 ≤ d.toInt) (upper : d.toInt ≤ -1) :
    (d + 8192#16).toInt = d.toInt + 8192 := by
  have step : (8192#16 : Word).toInt = 8192 := rfl
  rw [BitVec.toInt_add, step]
  apply Int.bmod_eq_of_le <;> omega

/-- Deltas that differ by 2^13 have one field. -/
theorem packField_add_8192 (policy : OvfPolicy) {d : Word} (lower : -8191 ≤ d.toInt) (upper : d.toInt ≤ -1) :
    packField policy (d + 8192#16) = packField policy d := by
  have shifted := add_8192_toInt lower upper
  apply BitVec.eq_of_toNat_eq
  zify
  rw [packField_toNat, packField_toNat, sentDelta_of_inside (by omega) (by omega),
    sentDelta_of_inside (by omega) (by omega), shifted]
  omega

/-- Settles O21: the two deltas have one field, and neither overflows. -/
theorem negativeDeltasAlias : Obligations.NegativeDeltasAlias := by
  intro d id s lower upper
  have shifted := add_8192_toInt lower upper
  refine ⟨_, _, exec_cmdPack_of_inside lower (by omega) id s, ?_⟩
  rw [exec_cmdPack_of_inside (by omega) (by omega), packMsw, packLsw, packField_add_8192 _ lower upper]
  rfl

/-! ### The receiver's value (R144) -/

/-- ZERO_EXTEND reads the field as a natural number. -/
theorem assemble_zeroExtend_toInt (hi6 : BitVec 6) (lo7 : BitVec 7) :
    (assemble .zeroExtend hi6 lo7).toInt = ((hi6 ++ lo7 : BitVec 13).toNat : Int) := by
  have small := (hi6 ++ lo7 : BitVec 13).isLt
  rw [assemble, BitVec.toInt_eq_toNat_cond, BitVec.toNat_setWidth]
  omega

/-- SIGN_EXTEND_13 reads it in two's complement. -/
theorem assemble_signExtend13_toInt (hi6 : BitVec 6) (lo7 : BitVec 7) :
    (assemble .signExtend13 hi6 lo7).toInt =
      if (hi6 ++ lo7 : BitVec 13).toNat < 4096 then ((hi6 ++ lo7 : BitVec 13).toNat : Int)
      else (hi6 ++ lo7 : BitVec 13).toNat - 8192 := by
  rw [assemble, BitVec.toInt_signExtend_of_le (by decide), BitVec.toInt_eq_toNat_cond]
  split_ifs <;> omega

/-- Settles O25: both modes read one number, the field's. -/
theorem assembledValue : Obligations.AssembledValue := by
  intro hi6 lo7 f
  have field : ((hi6 ++ lo7 : BitVec 13).toNat : Int) = f := by
    rw [field_toNat]
    simp [f]
  refine ⟨(assemble_zeroExtend_toInt hi6 lo7).trans field, (assemble_signExtend13_toInt hi6 lo7).trans ?_⟩
  rw [← field]
  simp

/-! ### The receiver on one byte (R145 to R147, R150) -/

theorem exec_cmdLsw (lo7 : BitVec 7) (s : State) : exec (.cmdLsw lo7) s = .next (receiveLsw lo7 s.begin) := rfl

/-- Settles O23: the two exact next states of a byte that the receiver does not discard. -/
theorem emissionWritesTarget : Obligations.EmissionWritesTarget := by
  refine fun b s => ⟨fun msw => exec_cmdRx_of_msw msw s, fun lsw waiting => ?_⟩
  rw [exec_cmdRx_of_lsw lsw, receiveLsw_begin_completes _ waiting]
  rfl

/-- Settles O24: a byte of a class has the class's fields, and each class is one branch of the receiver. -/
theorem commandWordsStepTheReceiver : Obligations.CommandWordsStepTheReceiver := by
  refine fun s => ⟨fun id hi6 => ⟨rfl, ?_⟩, fun lo7 => ⟨?_, fun idle => ?_, fun waiting => ?_⟩⟩
  · refine (exec_cmdRx_of_msw (isMsw_mswByte id hi6) s).trans ?_
    rw [mswId_mswByte, mswHigh6_mswByte]
    rfl
  · refine (exec_cmdRx_of_lsw (isMsw_lswByte lo7) s).trans ?_
    rw [lswLow7_lswByte, exec_cmdLsw]
  · rw [exec_cmdLsw, receiveLsw_begin_discards _ idle]
  · rw [exec_cmdLsw, receiveLsw_begin_completes _ waiting]
    rfl

/-- A stray LSW changes nothing but the outputs. -/
theorem exec_cmdRx_of_stray {b : Byte} {s : State} (lsw : isMsw b = false) (idle : s.rxState = .awaitingMsw) :
    exec (.cmdRx b) s = .next { s with out := [] } := by
  rw [exec_cmdRx_of_lsw lsw, receiveLsw_begin_discards _ idle]

/-- After an LSW the receiver waits for an MSW, whatever it waited for before. -/
theorem receiveLsw_begin_rxState (l : BitVec 7) (s : State) : (receiveLsw l s.begin).rxState = .awaitingMsw := by
  cases waiting : s.rxState with
  | awaitingLsw => rw [receiveLsw_begin_completes l waiting]
  | awaitingMsw => rw [receiveLsw_begin_discards l waiting]; exact waiting

/-- Settles O28: an MSW captures the same fields again, and an LSW has left a receiver that discards the next one. -/
theorem repeatedByteHasNoFurtherEffect : Obligations.RepeatedByteHasNoFurtherEffect := by
  intro b s
  cases class_b : isMsw b with
  | true => exact ⟨_, exec_cmdRx_of_msw class_b s, exec_cmdRx_of_msw class_b _⟩
  | false => exact ⟨_, exec_cmdRx_of_lsw class_b s, exec_cmdRx_of_stray class_b (receiveLsw_begin_rxState _ s)⟩

/-! ### Sequences of bytes (R149) -/

/-- Any bytes complete, and leave the configuration. -/
theorem runOps_bytes (bytes : List Byte) (s : State) :
    ∃ t, runOps (bytes.map .cmdRx) s = .next t ∧ t.cfg = s.cfg := by
  induction bytes generalizing s with
  | nil => exact ⟨s, rfl, rfl⟩
  | cons b bytes ih =>
    obtain ⟨t, rest, cfg⟩ := ih (receiveRun b s.begin)
    refine ⟨t, (runOps_cons s _ _ rfl).trans rest, cfg.trans ?_⟩
    obtain ⟨-, h⟩ | ⟨-, -, h⟩ | ⟨-, -, h⟩ := receiveRun_cases s.begin b <;> simp [h]

/-- Settles O27: what stood before the last byte does not matter, because an MSW overwrites it and an LSW closes it. -/
theorem receiverResynchronises : Obligations.ReceiverResynchronises := by
  intro before p l s lsw
  obtain ⟨r, run, cfg⟩ := runOps_bytes before s
  have last {t : State} (h : exec (.cmdRx p) r = .next t) : runOps ((before ++ [p]).map .cmdRx) s = .next t := by
    rw [List.map_append, runOps_append s _ _ run]
    exact runOps_cons r _ [] h
  cases class_p : p.getLsbD 7 with
  | true =>
    refine ⟨_, _, last (exec_cmdRx_of_msw class_p r), exec_cmdRx_of_lsw lsw _, fun _ => ⟨rfl, rfl, ?_⟩, nofun⟩
    rw [receiveLsw_begin_completes _ rfl, ← cfg]
    rfl
  | false =>
    exact ⟨_, _, last (exec_cmdRx_of_lsw class_p r), exec_cmdRx_of_stray lsw (receiveLsw_begin_rxState _ r), nofun,
      fun _ => rfl⟩

/-! ### A packed command, received (R148) -/

/-- The value that a packed delta arrives as. -/
def receivedValue (cfg : Config) (d : Word) : Word :=
  assemble cfg.unpackSignMode (fieldHigh6 (packField cfg.ovfPolicy d)) (fieldLow7 (packField cfg.ovfPolicy d))

/-- A field is its two parts. -/
theorem field_append (f : BitVec 13) : fieldHigh6 f ++ fieldLow7 f = f := by
  apply BitVec.eq_of_toNat_eq
  rw [field_toNat, fieldHigh6_toNat, fieldLow7_toNat]
  omega

/-- The value as a number, by the sent delta. -/
theorem receivedValue_zeroExtend_toInt {cfg : Config} (mode : cfg.unpackSignMode = .zeroExtend) (d : Word) :
    (receivedValue cfg d).toInt = (sentDelta cfg.ovfPolicy d).toInt % 8192 := by
  rw [receivedValue, mode, assemble_zeroExtend_toInt, field_append, packField_toNat]

theorem receivedValue_signExtend13_toInt {cfg : Config} (mode : cfg.unpackSignMode = .signExtend13) (d : Word) :
    (receivedValue cfg d).toInt =
      if (sentDelta cfg.ovfPolicy d).toInt % 8192 < 4096 then (sentDelta cfg.ovfPolicy d).toInt % 8192
      else (sentDelta cfg.ovfPolicy d).toInt % 8192 - 8192 := by
  rw [receivedValue, mode, assemble_signExtend13_toInt, field_append, ← packField_toNat]
  simp

/-- A delta arrives unchanged exactly on the exact range of the sign mode: a value outside it cannot arrive. -/
theorem receivedValue_eq_self_iff (cfg : Config) (d : Word) :
    receivedValue cfg d = d ↔ Spec.exactDelta cfg.unpackSignMode d := by
  rw [← BitVec.toInt_inj]
  cases mode : cfg.unpackSignMode with
  | zeroExtend =>
    rw [receivedValue_zeroExtend_toInt mode]
    refine ⟨fun h => ⟨by omega, by omega⟩, fun ⟨lower, upper⟩ => ?_⟩
    rw [sentDelta_of_inside (by omega) upper]
    omega
  | signExtend13 =>
    rw [receivedValue_signExtend13_toInt mode]
    refine ⟨fun h => ?_, fun ⟨lower, upper⟩ => ?_⟩
    · split_ifs at h <;> constructor <;> omega
    · rw [sentDelta_of_inside (by omega) (by omega)]
      omega

/-- The two bytes of a packed delta, received: one emission, by the LSW. -/
theorem runOps_packed_bytes (d : Word) (id : Bit) (s : State) : ∃ t,
    runOps [.cmdRx (packMsw s.cfg.ovfPolicy d id), .cmdRx (packLsw s.cfg.ovfPolicy d)] s = .next t ∧
    t.out = [.emit id (receivedValue s.cfg d)] ∧ t.rxState = .awaitingMsw ∧ t.rxMotor = id := by
  have first := exec_cmdRx_of_msw (isMsw_mswByte id (fieldHigh6 (packField s.cfg.ovfPolicy d))) s
  rw [mswId_mswByte, mswHigh6_mswByte] at first
  have second (r : State) := exec_cmdRx_of_lsw (isMsw_lswByte (fieldLow7 (packField s.cfg.ovfPolicy d))) r
  simp only [lswLow7_lswByte] at second
  refine ⟨_, (runOps_cons s _ _ first).trans (runOps_cons _ _ [] (second _)), ?_⟩
  rw [receiveLsw_begin_completes _ rfl]
  exact ⟨rfl, rfl, setChan_rxMotor _ _ _⟩

/-- Settles O26: the MSW captures the id and the high bits from either receiver state, so the LSW emits the value of
the whole field, which is the sent delta modulo 2^13 as the sign mode reads it. -/
theorem commandRoundTrip : Obligations.CommandRoundTrip := by
  intro d id s
  obtain ⟨t, run, out, rxState, rxMotor⟩ := runOps_packed_bytes d id s
  have exact_iff := receivedValue_eq_self_iff s.cfg d
  refine ⟨_, _, _, _, t, receivedValue s.cfg d, exec_cmdPack d id s, run, out, rxState, rxMotor,
    fun zeroMode => ⟨?_, fun lower upper => ?_⟩, fun signMode => ?_⟩
  · rwa [zeroMode] at exact_iff
  · rw [receivedValue_zeroExtend_toInt zeroMode, sentDelta_of_inside lower (by omega)]
    omega
  · rwa [signMode] at exact_iff

/-! ### Status codes (R211) -/

/-- Settles O29: CMD.PACK's only report follows its bytes, and QDEC.SAMPLE's is all it puts out. -/
theorem statusCodesOfReports : Obligations.StatusCodesOfReports := by
  refine fun s => ⟨fun d id => ⟨_, exec_cmdPack d id s, ?_⟩, fun m => ⟨_, sampleStepsTheDecoder m s, ?_⟩⟩
  · rw [packOverflow_eq]
    simp only [decide_eq_true_iff]
    split_ifs <;> rfl
  · simp only [Bool.and_eq_true, decide_eq_true_iff]
    split_ifs <;> rfl

end Sys2Proof.Machine
end

section
/-! SUPPORT. 44_servo.md R170, R171 and R174: the servo by the sign of its error, under both arithmetics. -/

namespace Sys2Proof.Machine

/-! ### The error (R170, R171) -/

/-- Taking the exact difference modulo 2^16 is the difference of the words. -/
theorem wrap16_sub (x y : Word) : wrap16 (x.toInt - y.toInt) = x - y := by
  rw [wrap16, Int.sub_eq_add_neg, BitVec.ofInt_add, BitVec.ofInt_neg, BitVec.ofInt_toInt, BitVec.ofInt_toInt,
    BitVec.sub_eq_add_neg]

theorem servoError_eq (arith : ErrArith) (c : Channel) : servoError arith c.target c.qpos = Spec.servoErr arith c := by
  cases arith
  · rfl
  · rw [servoError, wrap16_sub, Spec.servoErr]

/-- Inside the range of an i16 the wrapped error is the exact one. -/
theorem wrap16_toInt_of_inside {x : Int} (lower : -32768 ≤ x) (upper : x ≤ 32767) : (wrap16 x).toInt = x := by
  rw [wrap16, BitVec.toInt_ofInt]
  apply Int.bmod_eq_of_le <;> omega

/-- Above the range of an i16 an error below 2^16 wraps to a negative one. -/
theorem wrap16_toInt_neg_of_above {x : Int} (above : 32767 < x) (bound : x < 65536) : (wrap16 x).toInt < 0 := by
  rw [wrap16, BitVec.toInt_ofInt, Int.bmod_def]
  omega

/-- Below the range of an i16 an error above −2^16 wraps to a positive one. -/
theorem wrap16_toInt_pos_of_below {x : Int} (below : x < -32768) (bound : -65536 < x) : 0 < (wrap16 x).toInt := by
  rw [wrap16, BitVec.toInt_ofInt, Int.bmod_def]
  omega

/-! ### The outputs (R170) -/

theorem servoDrive_of_pos {err : Int} (pos : 0 < err) (c : Channel) :
    servoDrive err c = { c with dir := .fwd, duty := .pwmDutyOn, atTarget := false } := by
  rw [servoDrive, if_pos pos]

theorem servoDrive_of_neg {err : Int} (neg : err < 0) (c : Channel) :
    servoDrive err c = { c with dir := .rev, duty := .pwmDutyOn, atTarget := false } := by
  rw [servoDrive, if_neg (by omega), if_pos neg]

theorem servoDrive_zero (c : Channel) : servoDrive 0 c = { c with duty := .zero, atTarget := true } := rfl

theorem servoDrive_drivenBy (err : Int) (c : Channel) : Spec.drivenBy err c (servoDrive err c) :=
  ⟨fun pos => servoDrive_of_pos pos c, fun neg => servoDrive_of_neg neg c, fun zero => zero ▸ servoDrive_zero c⟩

theorem exec_servoStep (m : Motor) (s : State) : exec (.servoStep m) s = .next (servoRun m s.begin) := rfl

/-- A servo step, from an empty output, drives its channel by the error of R170. -/
theorem servoRun_begin (m : Motor) (s : State) :
    servoRun m s.begin =
      { s.setChan m (servoDrive (Spec.servoErr s.cfg.errArith (s.chan m)) (s.chan m)) with out := [] } := by
  simp only [servoRun, begin_cfg, begin_chan, servoError_eq]
  cases m <;> rfl

/-- Settles O30: the channel that a servo step leaves is the driven one. -/
theorem servoStepsBySign : Obligations.ServoStepsBySign := by
  refine fun m s => ⟨_, ?_, servoDrive_drivenBy _ _⟩
  rw [exec_servoStep, servoRun_begin]

/-- Settles O31: the two errors agree inside the range of an i16, and have opposite signs outside it. -/
theorem servoArithmeticsAgreeInRange : Obligations.ServoArithmeticsAgreeInRange := by
  refine fun m s => ⟨_, _, exec_servoStep m _, exec_servoStep m _, ?_⟩
  intro diff
  have targetBounds := (s.chan m).target.le_toInt
  have targetBounds' := (s.chan m).target.toInt_lt
  have qposBounds := (s.chan m).qpos.le_toInt
  have qposBounds' := (s.chan m).qpos.toInt_lt
  simp only [servoRun_chan, begin_cfg, begin_chan, chan_mk]
  change (_ → servoDrive (wrap16 diff).toInt _ = servoDrive diff _) ∧
    (_ → (servoDrive diff _).dir = _ ∧ (servoDrive (wrap16 diff).toInt _).dir = _) ∧
    (_ → (servoDrive diff _).dir = _ ∧ (servoDrive (wrap16 diff).toInt _).dir = _)
  refine ⟨fun ⟨lower, upper⟩ => ?_, fun above => ?_, fun below => ?_⟩
  · rw [wrap16_toInt_of_inside lower upper]
  · rw [servoDrive_of_pos (by omega), servoDrive_of_neg (wrap16_toInt_neg_of_above above (by omega))]
    exact ⟨rfl, rfl⟩
  · rw [servoDrive_of_neg (by omega), servoDrive_of_pos (wrap16_toInt_pos_of_below below (by omega))]
    exact ⟨rfl, rfl⟩

/-! ### The pins (R174; log 8) -/

/-- A driven channel is at its target exactly at error 0. -/
theorem servoDrive_atTarget (err : Int) (c : Channel) : (servoDrive err c).atTarget = true ↔ err = 0 := by
  rcases lt_trichotomy err 0 with neg | rfl | pos
  · simp [servoDrive_of_neg neg, neg.ne]
  · simp [servoDrive_zero]
  · simp [servoDrive_of_pos pos, pos.ne']

/-- A driven channel has duty 0 exactly at error 0. -/
theorem servoDrive_duty (err : Int) (c : Channel) :
    (servoDrive err c).duty = if err = 0 then .zero else .pwmDutyOn := by
  rcases lt_trichotomy err 0 with neg | rfl | pos
  · simp [servoDrive_of_neg neg, neg.ne]
  · simp [servoDrive_zero]
  · simp [servoDrive_of_pos pos, pos.ne']

/-- Settles O32: the pins show the driven channel's registers, and the other channel is as it was. -/
theorem dutyPinIsZeroExactlyAtTarget : Obligations.DutyPinIsZeroExactlyAtTarget := by
  intro DutyT Levels zero pwmDutyOn dirPinLevels nonzero m s
  refine ⟨_, exec_servoStep m s, ?_⟩
  intro err
  have driven : (servoRun m s.begin).chan m = servoDrive err (s.chan m) := by simp [servoRun_begin, err]
  have pin : dutyOut zero pwmDutyOn (servoRun m s.begin) m = if err = 0 then zero else pwmDutyOn := by
    rw [dutyOut, driven, servoDrive_duty]
    split_ifs <;> rfl
  have reached : atTargetOut (servoRun m s.begin) m = true ↔ err = 0 := by
    rw [atTargetOut, driven, servoDrive_atTarget]
  refine ⟨?_, reached, fun moving => ?_, fun pos => ?_, fun neg => ?_, fun still => ?_, fun n other => ?_⟩
  · rw [pin, reached]
    split_ifs with h <;> simp [h, nonzero]
  · rw [pin, if_neg moving]
  · rw [dirOut, driven, servoDrive_of_pos pos]
  · rw [dirOut, driven, servoDrive_of_neg neg]
  · rw [dirOut, driven, still, servoDrive_zero]
    rfl
  · have same : (servoRun m s.begin).chan n = s.chan n := servoRun_chan_other s.begin other
    simp only [dutyOut, dirOut, atTargetOut, same, and_self]

end Sys2Proof.Machine
end

section
/-! SUPPORT. 45_sequencer.md R190, R191 and R199, 60_exceptions.md R227, 30_encoding.md R86: the triggers and the
reads. -/

namespace Sys2Proof.Machine

/-! ### The triggers (R190, R191) -/

/-- A pin change moves the pins and sets the flag of its motor alone. -/
theorem exec_evPin (m : Motor) (a b : Bit) (s : State) :
    exec (.evPin m a b) s =
      .next { s.setChan m { s.chan m with encA := a, encB := b, encFlag := true } with out := [] } := by
  cases m <;> rfl

/-- A received byte is latched under the flag. -/
theorem exec_evRxbyte (b : Byte) (s : State) :
    exec (.evRxbyte b) s = .next { s with rxByte := b, cmdFlag := true, out := [] } := rfl

/-- Settles O33: a trigger is its operation, and a read is the register that it names. -/
theorem triggersSetTheirFlag : Obligations.TriggersSetTheirFlag := by
  intro s
  refine ⟨fun m a b => exec_evPin m a b s, fun b => exec_evRxbyte b s, fun e i sends => ⟨?_, ?_⟩, fun e => ?_,
    fun p => rfl, fun m => ⟨rfl, rfl, rfl, fun off => ?_, fun sticky => ?_⟩⟩
  · exact exec_of_sends (n := .env e) sends s
  · cases e <;> cases sends <;> rfl
  · cases e <;> simp [EnvMove.sends]
  · simp [EnvMove.answer, OutputPort.read, encResyncOut_off s m off]
  · simp [EnvMove.answer, OutputPort.read, encResyncOut_stickyFlag s m sticky]

/-! ### EV.PINS (R86) -/

theorem pinRead_eq_iff (s : State) (m : Motor) (a b : Bit) :
    pinRead s m = (a, b) ↔ (s.chan m).encA = a ∧ (s.chan m).encB = b := Prod.mk_inj

/-- Levels that the pins already have are no change. -/
theorem exec_evPins_of_same {s : State} {m : Motor} {a b : Bit} (same : pinRead s m = (a, b)) :
    exec (.evPins m a b) s = .next { s with out := [] } := by
  simp only [exec, execEvPins, if_pos same]
  rfl

/-- Other levels are the pin-change trigger. -/
theorem exec_evPins_of_moved {s : State} {m : Motor} {a b : Bit} (moved : pinRead s m ≠ (a, b)) :
    exec (.evPins m a b) s = exec (.evPin m a b) s := by
  simp only [exec, execEvPins, if_neg moved]
  rfl

/-- Settles O34, by whether the pins move. -/
theorem evPinsOnlyOnChange : Obligations.EvPinsOnlyOnChange := by
  intro m a b s
  rw [← pinRead_eq_iff]
  exact ⟨exec_evPins_of_same, fun moved => (exec_evPins_of_moved moved).trans (exec_evPin m a b s)⟩

/-! ### Coalescing (R199) -/

/-- Bytes overwrite each other in the latch. -/
theorem runOps_bytes_coalesce (before : List Byte) (b : Byte) (s : State) :
    runOps ((before ++ [b]).map .evRxbyte) s = .next { s with rxByte := b, cmdFlag := true, out := [] } := by
  induction before generalizing s with
  | nil => exact runOps_cons s _ [] (exec_evRxbyte b s)
  | cons c before ih => exact (runOps_cons s _ _ (exec_evRxbyte c s)).trans (ih _)

/-- Pin changes of one motor overwrite each other's levels. -/
theorem runOps_pins_coalesce (m : Motor) (before : List (Bit × Bit)) (a b : Bit) (s : State) :
    runOps ((before ++ [(a, b)]).map fun p => .evPin m p.1 p.2) s =
      .next { s.setChan m { s.chan m with encA := a, encB := b, encFlag := true } with out := [] } := by
  induction before generalizing s with
  | nil => exact runOps_cons s _ [] (exec_evPin m a b s)
  | cons p before ih =>
    refine (runOps_cons s _ _ (exec_evPin m p.1 p.2 s)).trans ((ih _).trans ?_)
    cases m <;> rfl

/-- Settles O38: each trigger overwrites what the one before it left. -/
theorem triggersCoalesce : Obligations.TriggersCoalesce := ⟨runOps_bytes_coalesce, runOps_pins_coalesce⟩

end Sys2Proof.Machine
end

section
/-! SUPPORT. 45_sequencer.md R192 to R201: the micro-steps as operations. -/

namespace Sys2Proof.Machine

/-! ### What USTEP leaves, by the micro-step at its position (R192 to R196) -/

/-- USTEP runs the micro-step at SEQ_PC from an empty output, and moves on. -/
theorem exec_ustep_of {s : State} {u : MicroStep} (position : microStepAt s.seqPc = u) :
    exec .ustep s = .next { microStepRun u s.begin with seqPc := s.seqPc + 1 } := by
  subst position
  rfl

theorem microStepAt_encService (m : Motor) :
    microStepAt (Spec.encService m) = .testEnc m ∧ microStepAt (Spec.encService m + 1) = .clearEnc m ∧
    microStepAt (Spec.encService m + 2) = .updateEnc m := by
  cases m <;> decide

theorem exec_ustep_testEnc {s : State} {m : Motor} (pc : s.seqPc = Spec.encService m) :
    exec .ustep s = .next { s with hit := (s.chan m).encFlag, seqPc := s.seqPc + 1, out := [] } := by
  obtain ⟨position, -, -⟩ := microStepAt_encService m
  rw [exec_ustep_of (pc ▸ position), microStepRun, begin_chan]
  rfl

theorem exec_ustep_clearEnc {s : State} {m : Motor} (pc : s.seqPc = Spec.encService m + 1) :
    exec .ustep s =
      .next { s.setChan m { s.chan m with encFlag := (s.chan m).encFlag && !s.hit } with
              seqPc := s.seqPc + 1, out := [] } := by
  obtain ⟨-, position, -⟩ := microStepAt_encService m
  rw [exec_ustep_of (pc ▸ position), microStepRun, begin_hit]
  cases hit : s.hit <;> cases m <;> simp [State.begin, hit]

theorem exec_ustep_updateEnc_of_hit {s : State} {m : Motor} (pc : s.seqPc = Spec.encService m + 2)
    (hit : s.hit = true) : exec .ustep s = .next { sampleRun m s.begin with seqPc := s.seqPc + 1 } := by
  obtain ⟨-, -, position⟩ := microStepAt_encService m
  rw [exec_ustep_of (pc ▸ position), microStepRun, begin_hit, if_pos hit]

theorem exec_ustep_updateEnc_of_miss {s : State} {m : Motor} (pc : s.seqPc = Spec.encService m + 2)
    (miss : s.hit = false) : exec .ustep s = .next { s with seqPc := s.seqPc + 1, out := [] } := by
  obtain ⟨-, -, position⟩ := microStepAt_encService m
  rw [exec_ustep_of (pc ▸ position), microStepRun, begin_hit, if_neg (by simp [miss])]
  rfl

theorem exec_ustep_testCmd {s : State} (pc : s.seqPc = 6) :
    exec .ustep s = .next { s with hit := s.cmdFlag, seqPc := 7, out := [] } :=
  congrArg Host.Outcome.next (ustepRun_ct s.begin pc)

theorem exec_ustep_clearCmd {s : State} (pc : s.seqPc = 7) :
    exec .ustep s = .next { s with cmdFlag := s.cmdFlag && !s.hit, seqPc := 8, out := [] } :=
  congrArg Host.Outcome.next (ustepRun_cc s.begin pc)

theorem exec_ustep_updateCmd_of_hit {s : State} (pc : s.seqPc = 8) (hit : s.hit = true) :
    exec .ustep s = .next { receiveRun s.rxByte s.begin with seqPc := 9 } := by
  rw [exec_ustep, ustepRun_cu s.begin pc, begin_hit, if_pos hit]
  rfl

theorem exec_ustep_updateCmd_of_miss {s : State} (pc : s.seqPc = 8) (miss : s.hit = false) :
    exec .ustep s = .next { s with seqPc := 9, out := [] } := by
  rw [exec_ustep, ustepRun_cu s.begin pc, begin_hit, if_neg (by simp [miss])]
  rfl

/-- Settles O35: by position, the micro-step that stands there. -/
theorem microStepsOfThePass : Obligations.MicroStepsOfThePass := fun s =>
  ⟨fun _ => exec_ustep_testEnc, fun _ => exec_ustep_clearEnc,
    fun m pc =>
      ⟨exec_ustep_updateEnc_of_miss pc, fun hit => ⟨_, exec_qdecSample m s, exec_ustep_updateEnc_of_hit pc hit⟩⟩,
    exec_ustep_testCmd, exec_ustep_clearCmd,
    fun pc => ⟨exec_ustep_updateCmd_of_miss pc, fun hit => ⟨_, rfl, exec_ustep_updateCmd_of_hit pc hit⟩⟩,
    fun pc => ⟨_, exec_servoStep .m0 s, congrArg Host.Outcome.next (ustepRun_sv0 s.begin pc)⟩,
    fun pc => ⟨_, exec_servoStep .m1 s, congrArg Host.Outcome.next (ustepRun_sv1 s.begin pc)⟩⟩

/-! ### The windows of a command service (R200) -/

/-- A receiver step that the sequencer runs is CMD.RX, up to the sequencer's own registers. -/
theorem receiveRun_begin_frame (s : State) (b latch : Byte) (flag hit : Bool) (pc : Fin 11) :
    receiveRun b { s with rxByte := latch, cmdFlag := flag, seqPc := pc, hit := hit, out := [] } =
      { receiveRun b s.begin with rxByte := latch, cmdFlag := flag, seqPc := pc, hit := hit } :=
  receiveRun_frame s.begin b latch flag hit pc

/-- Settles O39: the test reads the flag before the byte, the clear comes before or after it, and the update takes the
latch as it then is. -/
theorem commandTriggerWindows : Obligations.CommandTriggerWindows := by
  intro b s pc
  have test := exec_ustep_testCmd pc
  refine ⟨fun idle => ?_, fun pending => ⟨_, rfl, ?_⟩, fun pending => ⟨_, rfl, ?_⟩, fun pending => ⟨_, rfl, ?_⟩⟩
  · rw [idle] at test
    rw [runOps_cons s _ _ test, runOps_cons _ _ _ (exec_evRxbyte b _), runOps_cons _ _ _ (exec_ustep_clearCmd rfl),
      runOps_cons _ _ _ (exec_ustep_updateCmd_of_miss rfl rfl)]
    rfl
  · rw [pending] at test
    rw [runOps_cons s _ _ test, runOps_cons _ _ _ (exec_evRxbyte b _), runOps_cons _ _ _ (exec_ustep_clearCmd rfl),
      runOps_cons _ _ _ (exec_ustep_updateCmd_of_hit rfl rfl)]
    exact congrArg (fun r : State => Host.Outcome.next { r with seqPc := 9 })
      (receiveRun_begin_frame s b b false true 8)
  · rw [pending] at test
    rw [runOps_cons s _ _ test, runOps_cons _ _ _ (exec_ustep_clearCmd rfl), runOps_cons _ _ _ (exec_evRxbyte b _),
      runOps_cons _ _ _ (exec_ustep_updateCmd_of_hit rfl rfl)]
    exact congrArg (fun r : State => Host.Outcome.next { r with seqPc := 9 })
      (receiveRun_begin_frame s b b true true 8)
  · rw [pending] at test
    rw [runOps_cons s _ _ test, runOps_cons _ _ _ (exec_ustep_clearCmd rfl),
      runOps_cons _ _ _ (exec_ustep_updateCmd_of_hit rfl rfl), runOps_cons _ _ _ (exec_evRxbyte b _)]
    exact congrArg
      (fun r : State => Host.Outcome.next { r with rxByte := b, cmdFlag := true, seqPc := 9, out := [] })
      (receiveRun_begin_frame s s.rxByte s.rxByte false true 8)

/-! ### The windows of an encoder service (R200) -/

/-- A sample that the sequencer runs is QDEC.SAMPLE, up to the sequencer's own registers. -/
theorem sampleRun_begin_frame (s : State) (m : Motor) (hit : Bool) (pc : Fin 11) :
    sampleRun m { s with hit := hit, seqPc := pc, out := [] } =
      { sampleRun m s.begin with hit := hit, seqPc := pc } := by
  obtain ⟨c, o, e, -, -⟩ := sampleRun_writes s.begin m
  refine (sampleRun_frame s.begin m s.rxState s.rxMotor s.rxHigh6 s.rxByte s.cmdFlag hit pc).trans ?_
  rw [e]
  cases m <;> rfl

/-- The update that ends a service whose flag was found set: QDEC.SAMPLE on the channel as it then is. -/
theorem exec_ustep_update_service (r : State) {m : Motor} {pc : Fin 11} (start : pc = Spec.encService m) :
    exec .ustep { r with hit := true, seqPc := pc + 2, out := [] } =
      .next { sampleRun m r.begin with hit := true, seqPc := pc + 3 } := by
  subst start
  rw [exec_ustep_updateEnc_of_hit (m := m) rfl rfl, add_assoc]
  exact congrArg (fun x : State => Host.Outcome.next { x with seqPc := Spec.encService m + 3 })
    (sampleRun_begin_frame r m true (Spec.encService m + 2))

/-- A sample neither reads nor writes the flag of its motor. -/
theorem sampleRun_encFlag (s : State) (m : Motor) (flag : Bool) :
    sampleRun m (s.setChan m { s.chan m with encFlag := flag }).begin =
      (sampleRun m s.begin).setChan m { (sampleRun m s.begin).chan m with encFlag := flag } := by
  cases m <;> simp only [sampleRun, decoderRun_begin] <;> rfl

/-- Settles O40: the test reads the flag before the pin change, the clear comes before or after it, and the update
samples the pins as they then are. -/
theorem encoderTriggerWindows : Obligations.EncoderTriggerWindows := by
  intro m a b s pc moved
  have test := exec_ustep_testEnc pc
  have clear (r : State) (at1 : r.seqPc = s.seqPc + 1) :
      exec .ustep r =
        .next { r.setChan m { r.chan m with encFlag := (r.chan m).encFlag && !r.hit } with
                seqPc := s.seqPc + 2, out := [] } := by
    rw [exec_ustep_clearEnc (m := m) (by rw [at1, pc]), at1, add_assoc]
    rfl
  have update (r : State) := exec_ustep_update_service r pc
  refine ⟨fun idle => ?_, fun pending => ⟨_, exec_qdecSample m _, ?_⟩, fun pending => ⟨_, exec_qdecSample m _, ?_⟩,
    fun pending => ⟨_, exec_qdecSample m _, ?_⟩⟩
  · rw [idle] at test
    rw [runOps_cons s _ _ test, runOps_cons _ _ _ (exec_evPin m a b _), runOps_cons _ _ _ (clear _ (by simp)),
      runOps_cons _ _ _ (exec_ustep_updateEnc_of_miss (m := m) (by rw [pc]) (by simp)), add_assoc]
    cases m <;> simp [runOps, moved]
  · rw [pending] at test
    rw [runOps_cons s _ _ test, runOps_cons _ _ _ (exec_evPin m a b _), runOps_cons _ _ _ (clear _ (by simp))]
    refine Eq.trans ?_ (runOps_cons _ _ [] (update (moved false)))
    cases m <;> simp [moved]
  · rw [pending] at test
    rw [runOps_cons s _ _ test, runOps_cons _ _ _ (clear _ rfl), runOps_cons _ _ _ (exec_evPin m a b _)]
    refine Eq.trans ?_ (runOps_cons _ _ [] (update (moved true)))
    cases m <;> simp [moved]
  · rw [pending] at test
    have sample := update (s.setChan m { s.chan m with encFlag := false })
    rw [sampleRun_encFlag] at sample
    rw [runOps_cons s _ _ test, runOps_cons _ _ _ (clear _ rfl)]
    refine Eq.trans ?_ ((runOps_cons _ _ [.evPin m a b] sample).trans ?_)
    · cases m <;> simp
    · rw [runOps_cons _ _ _ (exec_evPin m a b _)]
      cases m <;> simp [runOps]

end Sys2Proof.Machine
end

section
/-! SUPPORT. 30_encoding.md R86, 45_sequencer.md R201: sequences of micro-steps and triggers, run as operations one
after the other and run as one.  The two differ in when the outputs are emptied alone. -/

namespace Sys2Proof.Machine

/-! ### The operations of a motor node's run -/

/-- What an operation of a motor node's run does to a state whose outputs it keeps: a trigger or a micro-step. -/
def moveAct : Instr → State → State
  | .evPin m a b => raisePin m a b
  | .evRxbyte b => raiseByte b
  | .ustep => ustepRun
  | _ => id

/-- Such operations one after the other, their outputs put out in order. -/
def movesAct : List Instr → State → State
  | [], s => s
  | i :: is, s => movesAct is (moveAct i s)

/-- The operations that a move of a run sends (R197, R227). -/
def IsMove (i : Instr) : Prop :=
  ∃ n : NodeMove, n.sends = some i

theorem exec_move {i : Instr} (move : IsMove i) (s : State) : exec i s = .next (moveAct i s.begin) := by
  obtain ⟨((_ | _ | _) | _), sends⟩ := move <;> cases sends <;> rfl

theorem moveAct_over (i : Instr) (s : State) (o : List Output) (a : List Delivery) (n : Nat) :
    moveAct i (s.over o a n) = (moveAct i s).over o a n := by
  unfold moveAct
  split
  · exact raisePin_over s o a n _ _ _
  · exact raiseByte_over s o a n _
  · exact ustepRun_over s o a n
  · rfl

theorem movesAct_over (is : List Instr) (s : State) (o : List Output) (a : List Delivery) (n : Nat) :
    movesAct is (s.over o a n) = (movesAct is s).over o a n := by
  induction is generalizing s with
  | nil => rfl
  | cons i is ih => rw [movesAct, moveAct_over, ih, movesAct]

/-- A state is what it is from an empty output, with its outputs before. -/
theorem begin_over (s : State) : s.begin.over s.out s.agenda s.draws = s := by
  simp [State.begin, State.over]

/-- The outputs of an earlier step do not change what the moves do, the outputs apart. -/
theorem movesAct_begin (is : List Instr) (s : State) (o : List Output) :
    { movesAct is s.begin with out := o } = { movesAct is s with out := o } := by
  have fields : movesAct is s.begin = (movesAct is s.begin).over [] s.agenda s.draws :=
    movesAct_over is s.begin [] s.agenda s.draws
  conv_rhs => rw [← begin_over s, movesAct_over]
  rw [fields]
  rfl

/-- The moves neither read nor write the agenda. -/
theorem movesAct_agenda (is : List Instr) (s : State) : (movesAct is s).agenda = s.agenda := by
  rw [← over_nil_self s, movesAct_over]
  rfl

/-- An operation starts from an empty output. -/
theorem allOutputs_begin (is : List Instr) (s : State) (moves : ∀ i ∈ is, IsMove i) :
    Spec.allOutputs is s.begin = Spec.allOutputs is s := by
  cases is with
  | nil => rfl
  | cons i is =>
    have move := moves i List.mem_cons_self
    rw [Spec.allOutputs, Spec.allOutputs, exec_move move, exec_move move]
    rfl

/-- The outputs of the moves, one after the other, follow those that a state has. -/
theorem movesAct_out (is : List Instr) (s : State) (moves : ∀ i ∈ is, IsMove i) :
    (movesAct is s).out = s.out ++ Spec.allOutputs is s := by
  induction is generalizing s with
  | nil => simp [movesAct, Spec.allOutputs]
  | cons i is ih =>
    have rest : ∀ j ∈ is, IsMove j := fun j mem => moves j (List.mem_cons_of_mem i mem)
    have outputs : Spec.allOutputs (i :: is) s = (moveAct i s.begin).out ++ Spec.allOutputs is (moveAct i s.begin) := by
      rw [Spec.allOutputs, exec_move (moves i List.mem_cons_self)]
    have split : moveAct i s = (moveAct i s.begin).over s.out s.agenda s.draws := by
      rw [← moveAct_over, begin_over]
    have same : (moveAct i s).begin = (moveAct i s.begin).begin := (movesAct_begin [i] s []).symm
    rw [movesAct, ih _ rest, outputs, ← allOutputs_begin is (moveAct i s) rest, same, allOutputs_begin is _ rest, split,
      over_out, List.append_assoc]

/-- From an empty output they are all there is. -/
theorem movesAct_out_begin {is : List Instr} (s : State) (moves : ∀ i ∈ is, IsMove i) :
    (movesAct is s.begin).out = Spec.allOutputs is s := by
  rw [movesAct_out is s.begin moves, begin_out, List.nil_append, allOutputs_begin is s moves]

/-- The moves after earlier outputs, and under another counter: those outputs and then the moves' own. -/
theorem movesAct_over_begin {is : List Instr} {s : State} (moves : ∀ i ∈ is, IsMove i) (o : List Output) (n : Nat) :
    movesAct is (s.begin.over o s.agenda n) =
      { movesAct is s with out := o ++ Spec.allOutputs is s, draws := n } := by
  have fields := congrArg (fun x : State => { x with out := o ++ Spec.allOutputs is s, agenda := s.agenda, draws := n })
    (movesAct_begin is s [])
  rw [movesAct_over, State.over, movesAct_out_begin s moves]
  refine fields.trans ?_
  simp only [← movesAct_agenda is s]

/-- The moves as operations: the state that they leave, with the outputs of the last one. -/
theorem runOps_moves (is : List Instr) (s : State) (moves : ∀ i ∈ is, IsMove i) :
    ∃ o, runOps is s = .next { movesAct is s with out := o } := by
  induction is generalizing s with
  | nil => exact ⟨s.out, rfl⟩
  | cons i is ih =>
    obtain ⟨o, rest⟩ := ih (moveAct i s.begin) fun j mem => moves j (List.mem_cons_of_mem i mem)
    refine ⟨o, (runOps_cons s _ _ (exec_move (moves i List.mem_cons_self) s)).trans (rest.trans ?_)⟩
    exact congrArg Host.Outcome.next (movesAct_begin (i :: is) s o)

/-! ### PASS (R201) -/

theorem isMove_ustep : IsMove .ustep := ⟨.ustep, rfl⟩

theorem isMove_evRxbyte (b : Byte) : IsMove (.evRxbyte b) := ⟨.env (.rxByte b), rfl⟩

theorem isMove_gapInstr (g : GapMove) : IsMove (gapInstr g) := by
  cases g with
  | ustep => exact isMove_ustep
  | pin m a b => exact ⟨.env (.pin m a b), rfl⟩

theorem isMove_of_mem_replicate {n : Nat} : ∀ i ∈ List.replicate n Instr.ustep, IsMove i :=
  fun _ mem => List.eq_of_mem_replicate mem ▸ isMove_ustep

theorem movesAct_usteps (n : Nat) (s : State) : movesAct (List.replicate n .ustep) s = ustepsRun n s := by
  induction n generalizing s with
  | zero => rfl
  | succ n ih => exact ih (ustepRun s)

theorem exec_pass (s : State) : exec .pass s = .next (ustepsRun (11 - s.seqPc.val) s.begin) := rfl

/-- The micro-steps to the end of the pass leave SEQ_PC at its start. -/
theorem ustepsRun_seqPc_of_rest {n : Nat} {s : State} (rest : n + s.seqPc.val = 11) : (ustepsRun n s).seqPc = 0 := by
  rw [ustepsRun_seqPc]
  apply Fin.ext
  simp [Fin.val_add, Fin.ofNat]
  omega

/-- Settles O37: the micro-steps one after the other, with the outputs of all of them. -/
theorem passIsItsMicroSteps : Obligations.PassIsItsMicroSteps := by
  intro n s rest
  obtain ⟨o, run⟩ := runOps_moves _ s (isMove_of_mem_replicate (n := n))
  rw [movesAct_usteps] at run
  refine ⟨_, run, ustepsRun_seqPc_of_rest rest, ?_⟩
  have outputs := movesAct_out_begin s (isMove_of_mem_replicate (n := n))
  rw [movesAct_usteps] at outputs
  rw [exec_pass, show 11 - s.seqPc.val = n by omega, ← outputs]
  exact congrArg Host.Outcome.next (ustepsRun_begin s n _)

/-! ### CMD.SEND (R86, R246) -/

theorem movesAct_append (is js : List Instr) (s : State) : movesAct (is ++ js) s = movesAct js (movesAct is s) := by
  induction is generalizing s with
  | nil => rfl
  | cons i is ih => exact ih (moveAct i s)

theorem movesAct_gap (gap : List GapMove) (s : State) : movesAct (gap.map gapInstr) s = gapRun gap s := by
  induction gap generalizing s with
  | nil => rfl
  | cons g gap ih =>
    rw [List.map_cons, movesAct, ih, gapRun]
    cases g <;> rfl

/-- The moves of a CMD.SEND after its packing, at the receiving node. -/
def sendMoves (gap : List GapMove) (msw lsw : Byte) : List Instr :=
  [.evRxbyte msw] ++ gap.map gapInstr ++ [.evRxbyte lsw]

theorem isMove_sendMoves (gap : List GapMove) (msw lsw : Byte) : ∀ i ∈ sendMoves gap msw lsw, IsMove i := by
  intro i mem
  simp only [sendMoves, List.mem_append, List.mem_singleton, List.mem_map] at mem
  obtain (rfl | ⟨g, -, rfl⟩) | rfl := mem
  · exact isMove_evRxbyte msw
  · exact isMove_gapInstr g
  · exact isMove_evRxbyte lsw

/-- CMD.SEND packs, and then makes its moves. -/
theorem sendRun_eq (gap : List GapMove) (d : Word) (id : Bit) (s : State) :
    sendRun gap d id s =
      movesAct (sendMoves gap (packMsw s.cfg.ovfPolicy d id) (packLsw s.cfg.ovfPolicy d)) (packRun d id s) := by
  rw [sendMoves, movesAct_append, movesAct_append, movesAct_gap]
  rfl

/-- Settles O43: the moves follow the packing's outputs, and the packing changes nothing else. -/
theorem sendIsPackAndTwoBytes : Obligations.SendIsPackAndTwoBytes := by
  intro d id s gap
  have moves := isMove_sendMoves (Config.sendGap s.draws) (packMsw s.cfg.ovfPolicy d id) (packLsw s.cfg.ovfPolicy d)
  obtain ⟨o, run⟩ := runOps_moves _ s moves
  refine ⟨_, _, _, _, exec_cmdPack d id s, ⟨_, _, rfl⟩, run, ?_⟩
  have packed : packRun d id { s.begin with draws := s.draws + 1 } =
      s.begin.over (.packed (packMsw s.cfg.ovfPolicy d id) (packLsw s.cfg.ovfPolicy d) (packOverflow d) ::
        if packOverflow d then [.status (.commandOverflow d)] else []) s.agenda (s.draws + 1) := by
    rw [packRun_eq]
    simp [State.over, State.begin]
  refine congrArg Host.Outcome.next ((sendRun_eq _ d id _).trans ?_)
  rw [packed]
  exact movesAct_over_begin moves _ _

end Sys2Proof.Machine
end

section
/-! SUPPORT. 70_reset_and_hazards.md R240 and R241, 45_sequencer.md R192 and R201: the construction, and the services of
a whole pass. -/

namespace Sys2Proof.Machine

/-! ### The construction (R240) -/

/-- Settles O44: the construction, with its draws for the free registers. -/
theorem resetConstructs : Obligations.ResetConstructs :=
  fun a0 b0 a1 b1 s =>
    ⟨Config.drawDir s.draws .m0, Config.drawDir s.draws .m1, Config.drawRxMotor s.draws, Config.drawRxHigh6 s.draws,
      Config.drawRxByte s.draws, exec_reset a0 b0 a1 b1 s⟩

/-- Settles O45: both are the construction with draw 0 and low pins, whose code under G0 is 0. -/
theorem resetStateIsAConstruction : Obligations.ResetStateIsAConstruction :=
  ⟨exec_reset 0#1 0#1 0#1 0#1 { State.reset with draws := 0 }, rfl⟩

/-! ### A pass by its services (R192) -/

/-- From the start of a pass, PASS is eleven micro-steps (R201). -/
theorem exec_pass_of_start {s : State} (pc : s.seqPc = 0) : exec .pass s = .next (ustepsRun 11 s.begin) := by
  have eleven : 11 - s.seqPc.val = 11 := by simp [pc]
  rw [exec_pass, eleven]

/-- An encoder service without a pending flag changes HIT alone. -/
theorem encService_idle {s : State} {m : Motor} (pc : s.seqPc = Spec.encService m)
    (idle : (s.chan m).encFlag = false) : ustepsRun 3 s = { s with hit := false, seqPc := Spec.encService m + 3 } := by
  rcases s with ⟨cfg, ⟨a, b, q, p, t, d, u, r, flag, e⟩, ⟨a', b', q', p', t', d', u', r', flag', e'⟩⟩
  cases pc
  cases m <;> cases idle <;> rfl

/-- The services of a pass without a pending flag change HIT alone. -/
theorem services_idle {s : State} (pc : s.seqPc = 0) (idle0 : s.ch0.encFlag = false) (idle1 : s.ch1.encFlag = false)
    (idle : s.cmdFlag = false) : ustepsRun 9 s = { s with hit := false, seqPc := 9 } := by
  have first : ustepsRun 3 s = { s with hit := false, seqPc := 3 } := encService_idle (m := .m0) pc idle0
  have second := encService_idle (s := { s with hit := false, seqPc := 3 }) (m := .m1) rfl idle1
  have third := cmdService_idle { s with hit := false, seqPc := 6 } rfl idle
  rw [ustepsRun_add s 3 6, first, ustepsRun_add _ 3 3, second]
  refine third.trans ?_
  rw [idle]

/-- The services of a pass with a pending byte run the receiver on the latch.  The encoder services before it leave what
the servo and the receiver use. -/
theorem services_pending {s : State} (pc : s.seqPc = 0) (pending : s.cmdFlag = true) :
    ∃ c0 c1 hit o, s.ch0.SameServo c0 ∧ s.ch1.SameServo c1 ∧
      ustepsRun 9 s =
        { receiveRun s.rxByte { s with ch0 := c0, ch1 := c1, hit := hit, out := o, seqPc := 6 } with
          cmdFlag := false, hit := true, seqPc := 9 } := by
  obtain ⟨c0, hit0, o0, first, same0⟩ := encService_m0 s pc
  obtain ⟨c1, hit1, o1, second, same1⟩ := encService_m1 (ustepsRun 3 s) (by rw [first])
  refine ⟨c0, c1, hit1, o1, same0, by rwa [first] at same1, ?_⟩
  rw [ustepsRun_add s 3 6, ustepsRun_add _ 3 3, second, first]
  exact cmdService_pending _ rfl pending

/-- The servo micro-steps drive both channels by their errors and change nothing else. -/
theorem servoService_eq {s : State} (pc : s.seqPc = 9) :
    ustepsRun 2 s =
      { s with
        ch0 := servoDrive (Spec.servoErr s.cfg.errArith s.ch0) s.ch0
        ch1 := servoDrive (Spec.servoErr s.cfg.errArith s.ch1) s.ch1
        seqPc := 0 } := by
  rw [servoService s pc]
  simp [servoRun, servoError_eq]

/-! ### The first pass after a construction (R241) -/

/-- A channel whose TARGET is its QPOS is at its target, under both arithmetics. -/
theorem servoErr_of_eq {arith : ErrArith} {c : Channel} (same : c.target = c.qpos) : Spec.servoErr arith c = 0 := by
  cases arith <;> simp [Spec.servoErr, same]

/-- Settles O46: no flag is set, so nothing is serviced, and both errors are 0. -/
theorem firstPassAfterResetHoldsStill : Obligations.FirstPassAfterResetHoldsStill := by
  intro a0 b0 a1 b1 s t h
  rw [exec_reset] at h
  cases h
  rw [exec_pass_of_start rfl]
  refine congrArg Host.Outcome.next ((ustepsRun_add _ 9 2).trans ?_)
  rw [services_idle rfl rfl rfl rfl, servoService_eq rfl, servoErr_of_eq rfl, servoErr_of_eq rfl]
  rfl

/-! ### The whole path of a command -/

/-- A servo step leaves TARGET. -/
theorem servoDrive_target (err : Int) (c : Channel) : (servoDrive err c).target = c.target := by
  obtain ⟨d, u, t, e⟩ := servoDrive_eq err c
  rw [e]

/-- The services of a pass with a pending MSW: the receiver waits for its LSW, and TARGET stays. -/
theorem services_msw {s : State} (pc : s.seqPc = 0) (pending : s.cmdFlag = true) {id : Bit} {hi6 : BitVec 6}
    (latch : s.rxByte = mswByte id hi6) :
    ∃ c0 c1 o, c0.target = s.ch0.target ∧ c1.target = s.ch1.target ∧
      ustepsRun 9 s =
        { s with
          ch0 := c0, ch1 := c1, rxMotor := id, rxHigh6 := hi6, rxState := .awaitingLsw, cmdFlag := false
          hit := true, seqPc := 9, out := o } := by
  obtain ⟨c0, c1, hit, o, ⟨-, -, target0, -⟩, ⟨-, -, target1, -⟩, services⟩ := services_pending pc pending
  refine ⟨c0, c1, o, target0, target1, services.trans ?_⟩
  rw [latch, receiveRun_msw _ _ (isMsw_mswByte id hi6), mswId_mswByte, mswHigh6_mswByte]

/-- The services of a pass with a pending LSW that completes a pair: TARGET of the captured motor is written. -/
theorem services_lsw {s : State} (pc : s.seqPc = 0) (pending : s.cmdFlag = true) {lo7 : BitVec 7}
    (latch : s.rxByte = lswByte lo7) (waiting : s.rxState = .awaitingLsw) :
    (ustepsRun 9 s).seqPc = 9 ∧ (ustepsRun 9 s).cmdFlag = false ∧ (ustepsRun 9 s).rxState = .awaitingMsw ∧
    ((ustepsRun 9 s).chan (motorOfBit s.rxMotor)).target = assemble s.cfg.unpackSignMode s.rxHigh6 lo7 ∧
    ∀ n, n ≠ motorOfBit s.rxMotor → ((ustepsRun 9 s).chan n).target = (s.chan n).target := by
  obtain ⟨c0, c1, hit, o, ⟨-, -, target0, -⟩, ⟨-, -, target1, -⟩, services⟩ := services_pending pc pending
  rw [latch, receiveRun_lsw _ _ (isMsw_lswByte lo7), lswLow7_lswByte,
    receiveLsw_completes _ _ (by exact waiting)] at services
  rw [services]
  refine ⟨rfl, rfl, rfl, by simp, fun n other => ?_⟩
  simp only [chan_mk]
  rw [chan_setChan_other _ _ other]
  cases n
  · exact target0
  · exact target1

/-- A pass with a pending MSW. -/
theorem pass_msw {s : State} (pc : s.seqPc = 0) (pending : s.cmdFlag = true) {id : Bit} {hi6 : BitVec 6}
    (latch : s.rxByte = mswByte id hi6) :
    ∃ t, exec .pass s = .next t ∧ t.cfg = s.cfg ∧ t.seqPc = 0 ∧ t.rxState = .awaitingLsw ∧ t.rxMotor = id ∧
      t.rxHigh6 = hi6 ∧ ∀ n, (t.chan n).target = (s.chan n).target := by
  obtain ⟨c0, c1, o, target0, target1, services⟩ := services_msw (s := s.begin) pc pending latch
  have whole : ustepsRun 11 s.begin = _ := (ustepsRun_add _ 9 2).trans (congrArg _ services)
  rw [servoService_eq rfl] at whole
  refine ⟨_, exec_pass_of_start pc, ?_⟩
  rw [whole]
  refine ⟨rfl, rfl, rfl, rfl, rfl, fun n => ?_⟩
  cases n
  · exact (servoDrive_target _ _).trans target0
  · exact (servoDrive_target _ _).trans target1

/-- Both channels of `t` are what R170 gives for the channels of `p`, and the receiver and the flag are those of `p`. -/
def DrivenFrom (p t : State) : Prop :=
  t.seqPc = 0 ∧ t.cmdFlag = p.cmdFlag ∧ t.rxState = p.rxState ∧
    ∀ n, t.chan n = servoDrive (Spec.servoErr p.cfg.errArith (p.chan n)) (p.chan n)

/-- A pass is its first nine micro-steps and then the servo's, which drive both channels. -/
theorem pass_of_services {s : State} (pc : s.seqPc = 0) :
    ∃ p t o, runOps (List.replicate 9 .ustep) s = .next p ∧ exec .pass s = .next t ∧
      p = { ustepsRun 9 s.begin with out := o } ∧ DrivenFrom p t := by
  obtain ⟨o, run⟩ := runOps_usteps s 8
  have pc9 : (ustepsRun 9 s.begin).seqPc = 9 := by
    rw [ustepsRun_seqPc, begin_seqPc, pc]
    rfl
  refine ⟨_, _, o, run, exec_pass_of_start pc, rfl, ?_⟩
  rw [ustepsRun_add s.begin 9 2, servoService_eq pc9]
  generalize ustepsRun 9 s.begin = r
  refine ⟨rfl, rfl, rfl, fun n => ?_⟩
  cases n <;> rfl

/-- An exact delta is inside the packer's limits under both sign modes. -/
theorem inside_of_exactDelta {mode : UnpackSignMode} {d : Word} (exact_d : Spec.exactDelta mode d) :
    -8191 ≤ d.toInt ∧ d.toInt ≤ 8191 := by
  cases mode <;> obtain ⟨lower, upper⟩ := exact_d <;> constructor <;> omega

/-- The two bytes of a packed delta, delivered at the start of a pass with a whole pass between them: a state at the
start of the second pass, with the LSW pending for a receiver that waits for it. -/
theorem runOps_deliver (policy : OvfPolicy) (d : Word) (id : Bit) {s : State} (pc : s.seqPc = 0) :
    ∃ r, runOps [.evRxbyte (packMsw policy d id), .pass, .evRxbyte (packLsw policy d)] s = .next r ∧
      r.cfg = s.cfg ∧ r.seqPc = 0 ∧ r.cmdFlag = true ∧ r.rxByte = packLsw policy d ∧ r.rxState = .awaitingLsw ∧
      r.rxMotor = id ∧ r.rxHigh6 = fieldHigh6 (packField policy d) ∧
      ∀ n, (r.chan n).target = (s.chan n).target := by
  obtain ⟨t, pass, cfg, pc', waiting, rxMotor, rxHigh6, targets⟩ :=
    pass_msw (s := { s with rxByte := packMsw policy d id, cmdFlag := true, out := [] }) pc rfl rfl
  refine ⟨_, (runOps_cons s _ _ (exec_evRxbyte _ s)).trans ((runOps_cons _ _ _ pass).trans
    (runOps_cons t _ [] (exec_evRxbyte _ t))), cfg, pc', rfl, rfl, waiting, rxMotor, rxHigh6, fun n => ?_⟩
  simpa using targets n

/-- Settles O42: the first pass leaves the MSW in the receiver, the second one's command service completes the pair, and
its servo micro-steps then drive both channels. -/
theorem commandDeliveryDrivesTheServo : Obligations.CommandDeliveryDrivesTheServo := by
  intro d m s pc exact_d
  obtain ⟨lower, upper⟩ := inside_of_exactDelta exact_d
  have value : receivedValue s.cfg d = d := (receivedValue_eq_self_iff s.cfg d).mpr exact_d
  obtain ⟨r, head, cfg, pcR, pending, latch, waiting, rxMotor, rxHigh6, targets⟩ :=
    runOps_deliver s.cfg.ovfPolicy d (motorBit m) pc
  obtain ⟨p, t, o, run, pass, p_eq, pcT, flagT, rxT, driven⟩ := pass_of_services pcR
  obtain ⟨pcP, flagP, rxP, targetP, othersP⟩ := services_lsw (s := r.begin) pcR pending latch waiting
  have cfgP : (ustepsRun 9 r.begin).cfg = s.cfg := (ustepsRun_cfg r.begin 9).trans cfg
  rw [begin_rxMotor, rxMotor, motorOfBit_motorBit] at targetP othersP
  rw [begin_cfg, begin_rxHigh6, cfg, rxHigh6] at targetP
  have targetM := targetP.trans value
  generalize ustepsRun 9 r.begin = services at p_eq pcP flagP rxP targetM othersP cfgP
  subst p_eq
  refine ⟨_, _, _, t, exec_cmdPack_of_inside lower upper (motorBit m) s, (runOps_append s _ _ head).trans run,
    (runOps_append s _ [.pass] head).trans (runOps_cons r _ [] pass), pcP, by simpa using targetM,
    fun n other => ?_, pcT, flagT.trans flagP, rxT.trans rxP, ?_, fun n other => ?_, fun n => ?_⟩
  · rw [chan_mk, othersP n other, begin_chan, targets]
  · rw [driven, servoDrive_target, chan_mk, targetM]
  · rw [driven, servoDrive_target, chan_mk, othersP n other, begin_chan, targets]
  · rw [driven, ← cfgP]
    exact servoDrive_drivenBy _ _

end Sys2Proof.Machine
end

section
/-! SUPPORT. 10_state.md R22 to R39: who writes which register.  What an operation can do is said once, as an `Effect`;
what happens to one channel is said once more, as a `ChannelStep` by the unit that writes.  The claims about single
registers are read off from the two. -/

namespace Sys2Proof.Machine

/-! ### What an operation can do -/

/-- The ways in which an operation completes, by the shared operation that it runs. -/
inductive Effect (i : Instr) (s : State) : State → Prop where
  | outputs (o : List Output) : Effect i s { s with out := o }
  | decoder (m : Motor) (key : BitVec 4) (unit : i = .qdecSample m ∨ ∃ row ∈ Spec.comboRows, i = row.1 m) :
    Effect i s (decoderRun m key s.begin)
  | msw (id : Bit) (hi6 : BitVec 6) : Effect i s (receiveMsw id hi6 s.begin)
  | lsw (lo7 : BitVec 7) : Effect i s (receiveLsw lo7 s.begin)
  | servo (m : Motor) (unit : i = .servoStep m) : Effect i s (servoRun m s.begin)
  | pin (m : Motor) (a b : Bit) : Effect i s (raisePin m a b s.begin)
  | byte (b : Byte) : Effect i s (raiseByte b s.begin)
  | ustep (unit : i = .ustep) : Effect i s (ustepRun s.begin)
  | reset (a0 b0 a1 b1 : Bit) (unit : i = .reset a0 b0 a1 b1) : Effect i s (construct a0 b0 a1 b1 s.draws s.begin)
  | pass (n : Nat) (unit : i = .pass) : Effect i s (ustepsRun n s.begin)
  | send (gap : List GapMove) (d : Word) (id : Bit) (unit : i = .cmdSend d id) :
    Effect i s (sendRun gap d id { s.begin with draws := s.draws + 1 })

/-- A stateless unit that completes writes the outputs alone. -/
theorem effect_of_stateless {i : Instr} {s t : State}
    (unit : (∃ v, i = .tlmEnc v) ∨ (∃ b, i = .tlmDec b) ∨
      (∃ x y roll pitch b1 b2, i = .tlmEncf x y roll pitch b1 b2) ∨ (∃ datagram, i = .tlmDecf datagram) ∨
      (∃ d id, i = .cmdPack d id)) (h : exec i s = .next t) : Effect i s t := by
  obtain ⟨o, rfl, -⟩ := exec_stateless unit rfl h
  exact .outputs o

/-- Every operation that completes has one of these effects. -/
theorem exec_effect {i : Instr} {s t : State} (h : exec i s = .next t) : Effect i s t := by
  cases i
  case tlmEnc v => exact effect_of_stateless (.inl ⟨v, rfl⟩) h
  case tlmEncf x y roll pitch b1 b2 =>
    exact effect_of_stateless (.inr (.inr (.inl ⟨x, y, roll, pitch, b1, b2, rfl⟩))) h
  case tlmDecf datagram => exact effect_of_stateless (.inr (.inr (.inr (.inl ⟨datagram, rfl⟩)))) h
  case cmdPack d id => exact effect_of_stateless (.inr (.inr (.inr (.inr ⟨d, id, rfl⟩)))) h
  case evPins m a b =>
    by_cases same : pinRead s m = (a, b)
    · rw [exec_evPins_of_same same] at h
      cases h
      exact .outputs []
    · rw [exec_evPins_of_moved same] at h
      cases h
      exact .pin m a b
  case cmdRx b =>
    cases class_b : isMsw b with
    | true =>
      rw [exec_cmdRx_of_msw class_b] at h
      cases h
      exact .msw (mswId b) (mswHigh6 b)
    | false =>
      rw [exec_cmdRx_of_lsw class_b] at h
      cases h
      exact .lsw (lswLow7 b)
  all_goals cases h
  case tlmDec | tlmZero | tlmLow | tlmHigh => exact .outputs _
  case cmdMsw id hi6 => exact .msw id hi6
  case cmdLsw lo7 => exact .lsw lo7
  case servoStep m => exact .servo m rfl
  case evPin m a b => exact .pin m a b
  case evRxbyte b => exact .byte b
  case ustep => exact .ustep rfl
  case reset a0 b0 a1 b1 => exact .reset a0 b0 a1 b1 rfl
  case pass => exact .pass _ rfl
  case cmdSend d id => exact .send _ d id rfl
  case qdecSample m => exact .decoder m _ (.inl rfl)
  all_goals exact .decoder _ _ (.inr (by simp [Spec.comboRows]))

/-! ### What can happen to a channel -/

/-- The units that write a channel's registers. -/
inductive Writer where
  | none
  | pins
  | clear
  | decoder
  | receiver
  | servo

/-- What each unit does to a channel. -/
inductive ChannelStep (cfg : Config) (c : Channel) : Writer → Channel → Prop where
  | keep : ChannelStep cfg c .none c
  | pins (a b : Bit) : ChannelStep cfg c .pins { c with encA := a, encB := b, encFlag := true }
  | clear : ChannelStep cfg c .clear { c with encFlag := false }
  | decoder (key : BitVec 4) : ChannelStep cfg c .decoder (decoderStep cfg.encoderFaultReport key c)
  | receiver (hi6 : BitVec 6) (lo7 : BitVec 7) :
    ChannelStep cfg c .receiver { c with target := assemble cfg.unpackSignMode hi6 lo7 }
  | servo (err : Int) : ChannelStep cfg c .servo (servoDrive err c)

variable {cfg : Config} {c c' : Channel} {w : Writer}

/-- Only the decoder writes QPHASE and QPOS (R22, R23). -/
theorem ChannelStep.decoder_of_ne (step : ChannelStep cfg c w c') (ne : c'.qphase ≠ c.qphase ∨ c'.qpos ≠ c.qpos) :
    w = .decoder := by
  cases step
  case decoder => rfl
  case servo err =>
    obtain ⟨d, u, t, e⟩ := servoDrive_eq err c
    simp [e] at ne
  all_goals simp at ne

/-- Only the servo writes DIR, DUTY and AT_TARGET (R26, R27, R28). -/
theorem ChannelStep.servo_of_ne (step : ChannelStep cfg c w c')
    (ne : c'.dir ≠ c.dir ∨ c'.duty ≠ c.duty ∨ c'.atTarget ≠ c.atTarget) : w = .servo := by
  cases step
  case servo => rfl
  all_goals simp [decoderStep] at ne

/-- Only a clear clears the sticky flag (R29). -/
theorem ChannelStep.clear_of_cleared (step : ChannelStep cfg c w c') (set : c.encFlag = true)
    (cleared : c'.encFlag = false) : w = .clear := by
  cases step
  case clear => rfl
  case servo err =>
    obtain ⟨d, u, t, e⟩ := servoDrive_eq err c
    simp [e, set] at cleared
  all_goals simp [decoderStep, set] at cleared

/-- Nothing clears ENC_RESYNC (R30). -/
theorem ChannelStep.encResync_stays (step : ChannelStep cfg c w c') (set : c.encResync = true) :
    c'.encResync = true := by
  cases step
  case servo err =>
    obtain ⟨d, u, t, e⟩ := servoDrive_eq err c
    simp [e, set]
  all_goals simp [decoderStep, set]

/-- Only the receiver writes TARGET (R25). -/
theorem ChannelStep.receiver_of_ne (step : ChannelStep cfg c w c') (ne : c'.target ≠ c.target) : w = .receiver := by
  cases step
  case receiver => rfl
  case servo err => exact absurd (servoDrive_target err c) ne
  all_goals simp [decoderStep] at ne

/-- The receiver's value is one that it can produce, under either mode (R144). -/
theorem assemble_reachable (mode : UnpackSignMode) (hi6 : BitVec 6) (lo7 : BitVec 7) :
    TargetReachable mode (assemble mode hi6 lo7) := by
  have small := (hi6 ++ lo7 : BitVec 13).isLt
  cases mode
  · change 0 ≤ (assemble .zeroExtend hi6 lo7).toInt ∧ (assemble .zeroExtend hi6 lo7).toInt ≤ 8191
    rw [assemble_zeroExtend_toInt]
    omega
  · change -4096 ≤ (assemble .signExtend13 hi6 lo7).toInt ∧ (assemble .signExtend13 hi6 lo7).toInt ≤ 4095
    rw [assemble_signExtend13_toInt]
    split_ifs <;> omega

/-- A servo step that reaches the target writes duty 0 (R170). -/
theorem servoDrive_atTarget_duty {err : Int} {c : Channel} (reached : (servoDrive err c).atTarget = true) :
    (servoDrive err c).duty = .zero := by
  rw [servoDrive_duty, if_pos ((servoDrive_atTarget err c).mp reached)]

/-- With OFF a decoder step leaves ENC_RESYNC (R125). -/
theorem decoderStep_encResync_of_off (key : BitVec 4) (c : Channel) :
    (decoderStep .off key c).encResync = c.encResync := Bool.or_false _

/-- What every unit keeps of a channel. -/
theorem ChannelStep.keeps_inv (step : ChannelStep cfg c w c') (inv : ChannelInv cfg c) : ChannelInv cfg c' := by
  obtain ⟨reachable, atTarget, off⟩ := inv
  cases step with
  | keep | pins | clear => exact ⟨reachable, atTarget, off⟩
  | decoder key =>
    refine ⟨reachable, atTarget, fun h => ?_⟩
    rw [h, decoderStep_encResync_of_off]
    exact off h
  | receiver hi6 lo7 => exact ⟨assemble_reachable cfg.unpackSignMode hi6 lo7, atTarget, off⟩
  | servo err =>
    obtain ⟨d, u, t, e⟩ := servoDrive_eq err c
    exact ⟨by rwa [servoDrive_target], servoDrive_atTarget_duty, by rwa [e]⟩

end Sys2Proof.Machine
end

section
/-! SUPPORT. 10_state.md R22 to R39, 45_sequencer.md R192: which unit an operation runs on a channel, and the claims
about who writes which register. -/

namespace Sys2Proof.Machine

/-! ### The units of a micro-step -/

/-- When a micro-step `u` from `s` to `t` runs a unit on motor `n`'s channel. -/
def MicroCause (u : MicroStep) (s t : State) (n : Motor) : Writer → Prop
  | .none => True
  | .pins => False
  | .clear => u = .clearEnc n ∧ s.hit = true
  | .decoder => u = .updateEnc n ∧ s.hit = true
  | .receiver => ∃ v, Output.emit (motorBit n) v ∈ t.out
  | .servo => u = .servo n

theorem motorBit_motorOfBit (id : Bit) : motorBit (motorOfBit id) = id := by
  revert id
  decide

/-- A write of motor `m`'s channel is a write of `n`'s exactly when they are the same. -/
theorem chan_setChan (s : State) (m n : Motor) (c : Channel) :
    (s.setChan m c).chan n = if n = m then c else s.chan n := by
  split_ifs with h
  · rw [h, chan_setChan_same]
  · exact chan_setChan_other s c h

/-- What a decoder step does to each channel. -/
theorem decoderRun_channel (m n : Motor) (key : BitVec 4) (s : State) :
    (decoderRun m key s).chan n = s.chan n ∨
    n = m ∧ ChannelStep s.cfg (s.chan n) .decoder ((decoderRun m key s).chan n) := by
  rw [decoderRun_eq, chan_mk, chan_setChan]
  split_ifs with h
  · subst h
    exact .inr ⟨rfl, .decoder key⟩
  · exact .inl rfl

/-- What a servo step does to each channel. -/
theorem servoRun_channel (m n : Motor) (s : State) :
    (servoRun m s).chan n = s.chan n ∨ n = m ∧ ChannelStep s.cfg (s.chan n) .servo ((servoRun m s).chan n) := by
  rw [servoRun, chan_setChan]
  split_ifs with h
  · subst h
    exact .inr ⟨rfl, .servo _⟩
  · exact .inl rfl

/-- What an LSW does to each channel: it writes TARGET of the motor that it emits for. -/
theorem receiveLsw_channel (lo7 : BitVec 7) (n : Motor) (s : State) :
    (receiveLsw lo7 s).chan n = s.chan n ∨
    (∃ v, Output.emit (motorBit n) v ∈ (receiveLsw lo7 s).out) ∧
      ChannelStep s.cfg (s.chan n) .receiver ((receiveLsw lo7 s).chan n) := by
  cases waiting : s.rxState with
  | awaitingMsw => exact .inl (by rw [receiveLsw_discards s lo7 waiting])
  | awaitingLsw =>
    rw [receiveLsw_completes s lo7 waiting, chan_mk, chan_setChan]
    split_ifs with h
    · subst h
      exact .inr ⟨⟨_, by rw [motorBit_motorOfBit]; exact List.mem_append_right _ List.mem_cons_self⟩, .receiver _ _⟩
    · exact .inl rfl

/-- What a micro-step does to a channel, and which unit does it. -/
theorem microStepRun_channel (u : MicroStep) (s : State) (n : Motor) :
    ∃ w, MicroCause u s (microStepRun u s) n w ∧ ChannelStep s.cfg (s.chan n) w ((microStepRun u s).chan n) := by
  have keep {t : State} (same : t.chan n = s.chan n) :
      ∃ w, MicroCause u s t n w ∧ ChannelStep s.cfg (s.chan n) w (t.chan n) :=
    ⟨.none, trivial, same ▸ .keep⟩
  cases u with
  | testEnc m => exact keep (chan_mk s n ..)
  | testCmd => exact keep (chan_mk s n ..)
  | clearCmd =>
    rw [microStepRun]
    split_ifs
    · exact keep (chan_mk s n ..)
    · exact keep rfl
  | clearEnc m =>
    rw [microStepRun]
    split_ifs with hit
    · by_cases same : n = m
      · subst same
        exact ⟨.clear, ⟨rfl, hit⟩, by rw [chan_setChan_same]; exact .clear⟩
      · exact keep (chan_setChan_other s _ same)
    · exact keep rfl
  | updateEnc m =>
    rw [microStepRun]
    split_ifs with hit
    · obtain same | ⟨rfl, step⟩ := decoderRun_channel m n (sampleKey m s) s
      · exact keep same
      · exact ⟨.decoder, ⟨rfl, hit⟩, step⟩
    · exact keep rfl
  | updateCmd =>
    rw [microStepRun]
    split_ifs
    · cases class_b : isMsw s.rxByte with
      | true => exact keep (by rw [receiveRun_msw s _ class_b]; exact chan_mk s n ..)
      | false =>
        rw [receiveRun_lsw s _ class_b]
        obtain same | ⟨emits, step⟩ := receiveLsw_channel (lswLow7 s.rxByte) n s
        · exact keep same
        · exact ⟨.receiver, emits, step⟩
    · exact keep rfl
  | servo m =>
    obtain same | ⟨rfl, step⟩ := servoRun_channel m n s
    · exact keep same
    · exact ⟨.servo, rfl, step⟩

/-- USTEP does to a channel what its micro-step does. -/
theorem ustepRun_channel (s : State) (n : Motor) :
    ∃ w, MicroCause (microStepAt s.seqPc) s (ustepRun s) n w ∧
      ChannelStep s.cfg (s.chan n) w ((ustepRun s).chan n) := by
  obtain ⟨w, cause, step⟩ := microStepRun_channel (microStepAt s.seqPc) s n
  rw [ustepRun, chan_mk]
  exact ⟨w, by cases w <;> exact cause, step⟩

/-! ### The units of an operation -/

/-- When an operation `i` from `s` to `t` runs a unit on motor `n`'s channel.  RESET writes a channel whole, and
PASS and CMD.SEND run many units: they have no cause here. -/
def Cause (i : Instr) (s t : State) (n : Motor) : Writer → Prop
  | .none => True
  | .pins => True
  | .clear => i = .ustep ∧ microStepAt s.seqPc = .clearEnc n ∧ s.hit = true
  | .decoder => i = .qdecSample n ∨ (∃ row ∈ Spec.comboRows, i = row.1 n) ∨
      i = .ustep ∧ microStepAt s.seqPc = .updateEnc n ∧ s.hit = true
  | .receiver => ∃ v, Output.emit (motorBit n) v ∈ t.out
  | .servo => i = .servoStep n ∨ i = .ustep ∧ microStepAt s.seqPc = .servo n

/-- The unit of a micro-step is the one that its USTEP runs. -/
theorem cause_of_microCause {s t : State} {n : Motor} {w : Writer}
    (micro : MicroCause (microStepAt s.seqPc) s t n w) : Cause .ustep s t n w := by
  cases w with
  | none | pins => trivial
  | clear => exact ⟨rfl, micro⟩
  | decoder => exact .inr (.inr ⟨rfl, micro⟩)
  | receiver => exact micro
  | servo => exact .inr ⟨rfl, micro⟩

/-- An operation but for RESET, PASS and CMD.SEND runs at most one unit on a channel. -/
theorem exec_channel {i : Instr} {s t : State} (h : exec i s = .next t) (n : Motor) :
    Spec.isReset i ∨ i = .pass ∨ Spec.isSend i ∨
      ∃ w, Cause i s t n w ∧ ChannelStep s.cfg (s.chan n) w (t.chan n) := by
  have keep (same : t.chan n = s.chan n) : Spec.isReset i ∨ i = .pass ∨ Spec.isSend i ∨
      ∃ w, Cause i s t n w ∧ ChannelStep s.cfg (s.chan n) w (t.chan n) :=
    .inr (.inr (.inr ⟨.none, trivial, same ▸ .keep⟩))
  cases exec_effect h with
  | outputs o => exact keep (chan_mk s n ..)
  | msw id hi6 => exact keep (chan_mk s n ..)
  | byte b => exact keep (chan_mk s n ..)
  | decoder m key unit =>
    obtain same | ⟨rfl, step⟩ := decoderRun_channel m n key s.begin
    · exact keep (same.trans (begin_chan s n))
    · rw [begin_chan] at step
      exact .inr (.inr (.inr ⟨.decoder, unit.imp_right .inl, step⟩))
  | lsw lo7 =>
    obtain same | ⟨emits, step⟩ := receiveLsw_channel lo7 n s.begin
    · exact keep (same.trans (begin_chan s n))
    · rw [begin_chan] at step
      exact .inr (.inr (.inr ⟨.receiver, emits, step⟩))
  | servo m unit =>
    obtain same | ⟨rfl, step⟩ := servoRun_channel m n s.begin
    · exact keep (same.trans (begin_chan s n))
    · rw [begin_chan] at step
      exact .inr (.inr (.inr ⟨.servo, .inl unit, step⟩))
  | pin m a b =>
    by_cases same : n = m
    · subst same
      refine .inr (.inr (.inr ⟨.pins, trivial, ?_⟩))
      rw [raisePin, chan_setChan_same, begin_chan]
      exact .pins a b
    · exact keep (by rw [raisePin, chan_setChan_other _ _ same, begin_chan])
  | ustep unit =>
    subst unit
    obtain ⟨w, cause, step⟩ := ustepRun_channel s.begin n
    rw [begin_chan] at step
    exact .inr (.inr (.inr ⟨w, cause_of_microCause (by cases w <;> exact cause), step⟩))
  | reset a0 b0 a1 b1 unit => exact .inl ⟨a0, b0, a1, b1, unit⟩
  | pass k unit => exact .inr (.inl unit)
  | send gap d id unit => exact .inr (.inr (.inl ⟨d, id, unit⟩))

/-! ### The positions of the units in a pass (R192) -/

theorem microStepAt_clearEnc {pc : Fin 11} {n : Motor} (h : microStepAt pc = .clearEnc n) :
    pc = Spec.encService n + 1 := by
  revert pc
  cases n <;> decide

theorem microStepAt_updateEnc {pc : Fin 11} {n : Motor} (h : microStepAt pc = .updateEnc n) :
    pc = Spec.encService n + 2 := by
  revert pc
  cases n <;> decide

theorem microStepAt_servo {pc : Fin 11} {n : Motor} (h : microStepAt pc = .servo n) :
    pc.val = 9 + (motorBit n).toNat := by
  revert pc
  cases n <;> decide

theorem microStepAt_clearCmd {pc : Fin 11} (h : microStepAt pc = .clearCmd) : pc = 7 := by
  revert pc
  decide

/-! ### Who writes the decoder's and the servo's registers -/

/-- Settles O49: only the decoder writes the two registers, and the operations that run it are those. -/
theorem decoderWrittenOnlyBySamples : Obligations.DecoderWrittenOnlyBySamples := by
  intro i m s t h ne
  obtain reset | pass | send | ⟨w, cause, step⟩ := exec_channel h m
  · exact .inr (.inr (.inl reset))
  · exact .inr (.inr (.inr (.inl pass)))
  · exact .inr (.inr (.inr (.inr (.inl send))))
  · obtain rfl := step.decoder_of_ne ne
    obtain sample | combo | ⟨ustep, position, hit⟩ := cause
    · exact .inl sample
    · exact .inr (.inl combo)
    · exact .inr (.inr (.inr (.inr (.inr ⟨ustep, microStepAt_updateEnc position, hit⟩))))

/-- Settles O50: only the servo writes the three registers, and the operations that run it are those. -/
theorem servoOutputsWrittenOnlyByServo : Obligations.ServoOutputsWrittenOnlyByServo := by
  intro i m s t h ne
  obtain reset | pass | send | ⟨w, cause, step⟩ := exec_channel h m
  · exact .inr (.inl reset)
  · exact .inr (.inr (.inl pass))
  · exact .inr (.inr (.inr (.inl send)))
  · obtain rfl := step.servo_of_ne ne
    obtain servo | ⟨ustep, position⟩ := cause
    · exact .inl servo
    · exact .inr (.inr (.inr (.inr ⟨ustep, microStepAt_servo position⟩)))

/-! ### Over any operation: the channels' steps, one after the other -/

/-- What several units do to a channel, one after the other. -/
def ChannelSteps (cfg : Config) : Channel → Channel → Prop :=
  Relation.ReflTransGen fun c c' => ∃ w, ChannelStep cfg c w c'

/-- From `s` to `t` the configuration stays and both channels go through units' steps. -/
def Evolves (s t : State) : Prop :=
  t.cfg = s.cfg ∧ ∀ n, ChannelSteps s.cfg (s.chan n) (t.chan n)

theorem Evolves.refl (s : State) : Evolves s s := ⟨rfl, fun _ => .refl⟩

theorem Evolves.trans {s t u : State} (first : Evolves s t) (second : Evolves t u) : Evolves s u := by
  obtain ⟨cfg, steps⟩ := first
  obtain ⟨cfg', steps'⟩ := second
  exact ⟨cfg'.trans cfg, fun n => (steps n).trans (cfg ▸ steps' n)⟩

theorem ustepRun_evolves (s : State) : Evolves s (ustepRun s) := by
  refine ⟨ustepRun_cfg s, fun n => ?_⟩
  obtain ⟨w, -, step⟩ := ustepRun_channel s n
  exact .single ⟨w, step⟩

theorem raisePin_evolves (m : Motor) (a b : Bit) (s : State) : Evolves s (raisePin m a b s) := by
  refine ⟨setChan_cfg s m _, fun n => ?_⟩
  rw [raisePin, chan_setChan]
  split_ifs with h
  · subst h
    exact .single ⟨_, .pins a b⟩
  · exact .refl

theorem ustepsRun_evolves (k : Nat) (s : State) : Evolves s (ustepsRun k s) :=
  ustepsRun_rel s Evolves.refl Evolves.trans ustepRun_evolves k

/-- A change of neither the configuration nor a channel is no step at all. -/
theorem evolves_of_same {s t : State} (cfg : t.cfg = s.cfg) (chans : ∀ n, t.chan n = s.chan n) : Evolves s t :=
  ⟨cfg, fun n => chans n ▸ .refl⟩

theorem begin_evolves (s : State) : Evolves s s.begin := evolves_of_same rfl (begin_chan s)

/-- CMD.SEND goes through its gap's moves, and writes no channel itself. -/
theorem sendRun_evolves (gap : List GapMove) (d : Word) (id : Bit) (s : State) : Evolves s (sendRun gap d id s) := by
  have latch (b : Byte) (r : State) : Evolves r (raiseByte b r) := evolves_of_same rfl fun n => chan_mk r n ..
  have pack : Evolves s (packRun d id s) := by
    rw [packRun_eq]
    exact evolves_of_same rfl fun n => chan_mk s n ..
  have moves (r : State) : Evolves r (gapRun gap r) :=
    gapRun_rel r Evolves.refl Evolves.trans ustepRun_evolves raisePin_evolves gap
  exact pack.trans ((latch _ _).trans ((moves _).trans (latch _ _)))

/-- An operation but for RESET takes the channels through units' steps, and keeps the configuration. -/
theorem exec_evolves {i : Instr} {s t : State} (h : exec i s = .next t) (noReset : ¬Spec.isReset i) : Evolves s t := by
  have counted (d : Nat) : Evolves s { s.begin with draws := d } :=
    evolves_of_same rfl fun n => (chan_mk s.begin n ..).trans (begin_chan s n)
  cases exec_effect h with
  | outputs o => exact evolves_of_same rfl fun n => chan_mk s n ..
  | msw id hi6 => exact evolves_of_same rfl fun n => chan_mk s n ..
  | byte b => exact evolves_of_same rfl fun n => chan_mk s n ..
  | reset a0 b0 a1 b1 unit => exact absurd ⟨a0, b0, a1, b1, unit⟩ noReset
  | pin m a b => exact (begin_evolves s).trans (raisePin_evolves m a b _)
  | ustep => exact (begin_evolves s).trans (ustepRun_evolves _)
  | pass n => exact (begin_evolves s).trans (ustepsRun_evolves n _)
  | send gap d id => exact (counted _).trans (sendRun_evolves gap d id _)
  | decoder m key =>
    refine (begin_evolves s).trans ⟨by rw [decoderRun_eq]; exact setChan_cfg _ _ _, fun n => ?_⟩
    obtain same | ⟨-, step⟩ := decoderRun_channel m n key s.begin
    · exact same ▸ .refl
    · exact .single ⟨_, step⟩
  | servo m =>
    refine (begin_evolves s).trans ⟨setChan_cfg _ _ _, fun n => ?_⟩
    obtain same | ⟨-, step⟩ := servoRun_channel m n s.begin
    · exact same ▸ .refl
    · exact .single ⟨_, step⟩
  | lsw lo7 =>
    refine (begin_evolves s).trans ⟨?_, fun n => ?_⟩
    · cases waiting : s.begin.rxState
      · rw [receiveLsw_discards _ lo7 waiting]
      · rw [receiveLsw_completes _ lo7 waiting]
        exact setChan_cfg _ _ _
    · obtain same | ⟨-, step⟩ := receiveLsw_channel lo7 n s.begin
      · exact same ▸ .refl
      · exact .single ⟨_, step⟩

/-! ### The configuration (R39) -/

theorem exec_cfg {i : Instr} {s t : State} (h : exec i s = .next t) : t.cfg = s.cfg := by
  by_cases reset : Spec.isReset i
  · obtain ⟨a0, b0, a1, b1, rfl⟩ := reset
    rw [exec_reset] at h
    cases h
    rfl
  · obtain ⟨cfg, -⟩ := exec_evolves h reset
    exact cfg

/-! ### A step (R11, R60; log 1) -/

theorem step_of_delivery {s : State} {d : Delivery} {rest : List Delivery} {i : Instr} (agenda : s.agenda = d :: rest)
    (ok : decode d = .ok i) : step s = exec i { s with agenda := rest } := by
  simp only [step, fetch, agenda, ok]

theorem step_of_no_delivery {s : State} (agenda : s.agenda = []) : step s = exec .ustep s := by
  simp only [step, fetch, agenda]

theorem step_of_reject {s : State} {d : Delivery} {rest : List Delivery} {why : Reject} (agenda : s.agenda = d :: rest)
    (error : decode d = .error why) : step s = .refused (.undeliverable why) := by
  simp only [step, fetch, agenda, error]

/-- Settles O55, by what the agenda holds. -/
theorem stepRunsTheNextDelivery : Obligations.StepRunsTheNextDelivery :=
  fun _ => ⟨fun _ _ _ => step_of_delivery, step_of_no_delivery, fun _ _ _ => step_of_reject⟩

/-- A step that completes is an operation that completes under some agenda. -/
theorem exec_of_step {s t : State} (h : step s = .next t) : ∃ i a, exec i { s with agenda := a } = .next t := by
  cases agenda : s.agenda with
  | nil => exact ⟨.ustep, s.agenda, (step_of_no_delivery agenda).symm.trans h⟩
  | cons d rest =>
    cases delivered : decode d with
    | ok i => exact ⟨i, rest, (step_of_delivery agenda delivered).symm.trans h⟩
    | error why => exact nomatch (step_of_reject agenda delivered).symm.trans h

/-- Settles O52: no operation writes the configuration, and the agenda is no part of it. -/
theorem configurationIsFixed : Obligations.ConfigurationIsFixed := by
  intro s t h
  obtain ⟨i, a, run⟩ := exec_of_step h
  have cfg := exec_cfg run
  exact cfg

/-! ### The invariant -/

theorem ChannelSteps.keeps_inv {cfg : Config} {c c' : Channel} (steps : ChannelSteps cfg c c')
    (inv : ChannelInv cfg c) : ChannelInv cfg c' := by
  induction steps with
  | refl => exact inv
  | tail _ last ih =>
    obtain ⟨w, step⟩ := last
    exact step.keeps_inv ih

/-- A constructed channel meets the invariant. -/
theorem constructChannel_inv (cfg : Config) (dir : Dir) (a b : Bit) :
    ChannelInv cfg (constructChannel cfg.phaseMap dir a b) := by
  refine ⟨?_, nofun, fun _ => rfl⟩
  change TargetReachable cfg.unpackSignMode 0#16
  cases cfg.unpackSignMode <;> decide

/-- Every operation keeps the invariant. -/
theorem exec_keeps_invariant {i : Instr} {s t : State} (h : exec i s = .next t) (inv : Invariant s) : Invariant t := by
  by_cases reset : Spec.isReset i
  · obtain ⟨a0, b0, a1, b1, rfl⟩ := reset
    rw [exec_reset] at h
    cases h
    exact ⟨constructChannel_inv s.cfg _ a0 b0, constructChannel_inv s.cfg _ a1 b1⟩
  · obtain ⟨cfg, steps⟩ := exec_evolves h reset
    obtain ⟨inv0, inv1⟩ := inv
    rw [Invariant, cfg]
    exact ⟨(steps .m0).keeps_inv inv0, (steps .m1).keeps_inv inv1⟩

/-- Settles O53: each unit keeps the invariant of the channel that it writes, a construction establishes it, and an
operation is a construction or a sequence of units' steps. -/
theorem everyStepKeepsTheInvariant : Obligations.EveryStepKeepsTheInvariant := by
  intro s t inv h
  obtain ⟨i, a, run⟩ := exec_of_step h
  exact exec_keeps_invariant run inv

/-- Settles O54: State.reset is a construction. -/
theorem resetMeetsTheInvariant : Obligations.ResetMeetsTheInvariant :=
  ⟨constructChannel_inv Config.standard _ 0#1 0#1, constructChannel_inv Config.standard _ 0#1 0#1⟩

/-! ### What clears a sticky flag -/

theorem ChannelSteps.encResync_stays {cfg : Config} {c c' : Channel} (steps : ChannelSteps cfg c c')
    (set : c.encResync = true) : c'.encResync = true := by
  induction steps with
  | refl => exact set
  | tail _ last ih =>
    obtain ⟨w, step⟩ := last
    exact step.encResync_stays ih

/-- A micro-step clears CMD_FLAG only at the clear, after a hit (R194). -/
theorem microStepRun_cmdFlag (u : MicroStep) (s : State) :
    (microStepRun u s).cmdFlag = s.cmdFlag ∨ u = .clearCmd ∧ s.hit = true := by
  cases u with
  | testEnc m => exact .inl rfl
  | testCmd => exact .inl rfl
  | clearEnc m =>
    rw [microStepRun]
    split_ifs
    · exact .inl (setChan_cmdFlag s m _)
    · exact .inl rfl
  | updateEnc m =>
    rw [microStepRun]
    split_ifs
    · rw [sampleRun, decoderRun_eq]
      exact .inl (setChan_cmdFlag s m _)
    · exact .inl rfl
  | clearCmd =>
    rw [microStepRun]
    split_ifs with hit
    · exact .inr ⟨rfl, hit⟩
    · exact .inl rfl
  | updateCmd =>
    rw [microStepRun]
    split_ifs
    · obtain ⟨-, h⟩ | ⟨-, -, h⟩ | ⟨-, -, h⟩ := receiveRun_cases s s.rxByte <;> simp [h]
    · exact .inl rfl
  | servo m => exact .inl (setChan_cmdFlag s m _)

/-- CMD_FLAG is cleared by RESET, by PASS, and by USTEP at the clear micro-step after a hit (R34, R38). -/
theorem exec_clears_cmdFlag {i : Instr} {s t : State} (h : exec i s = .next t) (set : s.cmdFlag = true)
    (cleared : t.cmdFlag = false) :
    Spec.isReset i ∨ i = .pass ∨ i = .ustep ∧ s.seqPc = 7 ∧ s.hit = true := by
  have kept (same : t.cmdFlag = s.cmdFlag) : False := by simp [same, set] at cleared
  cases exec_effect h with
  | outputs | msw => exact (kept rfl).elim
  | byte | send => cases cleared
  | servo | pin => exact (kept (setChan_cmdFlag _ _ _)).elim
  | decoder m key => exact (kept (by rw [decoderRun_eq]; exact setChan_cmdFlag _ _ _)).elim
  | lsw lo7 =>
    refine (kept ?_).elim
    cases waiting : s.begin.rxState
    · rw [receiveLsw_discards _ lo7 waiting, begin_cmdFlag]
    · rw [receiveLsw_completes _ lo7 waiting]
      exact setChan_cmdFlag _ _ _
  | reset a0 b0 a1 b1 unit => exact .inl ⟨a0, b0, a1, b1, unit⟩
  | pass n unit => exact .inr (.inl unit)
  | ustep unit =>
    obtain same | ⟨position, hit⟩ := microStepRun_cmdFlag (microStepAt s.seqPc) s.begin
    · exact (kept same).elim
    · exact .inr (.inr ⟨unit, microStepAt_clearCmd position, hit⟩)

/-- Settles O51: a clear is the only unit that clears an encoder's flag, no unit clears ENC_RESYNC, and CMD_FLAG is no
channel's. -/
theorem stickyFlagsClearedOnlyBySequencer : Obligations.StickyFlagsClearedOnlyBySequencer := by
  intro i m s t h
  refine ⟨fun set cleared => ?_, exec_clears_cmdFlag h, fun set cleared => ?_⟩
  · obtain reset | pass | send | ⟨w, cause, step⟩ := exec_channel h m
    · exact .inl reset
    · exact .inr (.inl pass)
    · exact .inr (.inr (.inl send))
    · obtain rfl := step.clear_of_cleared set cleared
      obtain ⟨ustep, position, hit⟩ := cause
      exact .inr (.inr (.inr ⟨ustep, microStepAt_clearEnc position, hit⟩))
  · by_contra noReset
    obtain ⟨-, steps⟩ := exec_evolves h noReset
    rw [(steps m).encResync_stays set] at cleared
    cases cleared

/-! ### TARGET (R25) -/

/-- From `s` to `t` no output is lost, and TARGET of motor `n` changes only with an emission for it. -/
def TargetByEmission (n : Motor) (s t : State) : Prop :=
  (∃ o, t.out = s.out ++ o) ∧
    ((t.chan n).target = (s.chan n).target ∨ ∃ v, Output.emit (motorBit n) v ∈ t.out)

theorem TargetByEmission.refl (n : Motor) (s : State) : TargetByEmission n s s :=
  ⟨⟨[], (List.append_nil _).symm⟩, .inl rfl⟩

theorem TargetByEmission.trans {n : Motor} {s t u : State} (first : TargetByEmission n s t)
    (second : TargetByEmission n t u) : TargetByEmission n s u := by
  obtain ⟨⟨o, out⟩, target⟩ := first
  obtain ⟨⟨o', out'⟩, target'⟩ := second
  refine ⟨⟨o ++ o', by rw [out', out, List.append_assoc]⟩, ?_⟩
  obtain same' | emits' := target'
  · obtain same | ⟨v, emits⟩ := target
    · exact .inl (same'.trans same)
    · exact .inr ⟨v, by rw [out']; exact List.mem_append_left _ emits⟩
  · exact .inr emits'

/-- A shared operation that only adds outputs, over earlier ones. -/
theorem out_of_over {f : State → State} (hf : ∀ x o a n, f (State.over x o a n) = (f x).over o a n) (s : State) :
    ∃ o, (f s).out = s.out ++ o :=
  ⟨(f s.begin).out, by rw [← over_out, ← hf, begin_over]⟩

theorem ustepRun_targetByEmission (n : Motor) (s : State) : TargetByEmission n s (ustepRun s) := by
  refine ⟨out_of_over ustepRun_over s, ?_⟩
  obtain ⟨w, cause, step⟩ := ustepRun_channel s n
  by_cases same : ((ustepRun s).chan n).target = (s.chan n).target
  · exact .inl same
  · obtain rfl := step.receiver_of_ne same
    exact .inr cause

theorem raisePin_targetByEmission (n m : Motor) (a b : Bit) (s : State) :
    TargetByEmission n s (raisePin m a b s) := by
  refine ⟨⟨[], by simp [raisePin]⟩, .inl ?_⟩
  rw [raisePin, chan_setChan]
  split_ifs with h
  · rw [h]
  · rfl

theorem sendRun_targetByEmission (n : Motor) (gap : List GapMove) (d : Word) (id : Bit) (s : State) :
    TargetByEmission n s (sendRun gap d id s) := by
  have latch (b : Byte) (r : State) : TargetByEmission n r (raiseByte b r) :=
    ⟨⟨[], (List.append_nil _).symm⟩, .inl (congrArg Channel.target (chan_mk r n ..))⟩
  have pack : TargetByEmission n s (packRun d id s) := by
    rw [packRun_eq]
    exact ⟨⟨_, rfl⟩, .inl (congrArg Channel.target (chan_mk s n ..))⟩
  have moves (r : State) : TargetByEmission n r (gapRun gap r) :=
    gapRun_rel r (.refl n) .trans (ustepRun_targetByEmission n) (raisePin_targetByEmission n) gap
  exact pack.trans ((latch _ _).trans ((moves _).trans (latch _ _)))

/-- Settles O48: the receiver is the only unit that writes TARGET, and it emits as it does. -/
theorem targetWrittenOnlyByEmission : Obligations.TargetWrittenOnlyByEmission := by
  intro i m s t h ne
  have emits {r : State} (same : r.chan m = s.chan m) (rel : TargetByEmission m r t) :
      ∃ v, Output.emit (motorBit m) v ∈ t.out := by
    obtain ⟨-, target | emits⟩ := rel
    · exact absurd (target.trans (congrArg Channel.target same)) ne
    · exact emits
  obtain reset | rfl | ⟨d, id, rfl⟩ | ⟨w, cause, step⟩ := exec_channel h m
  · exact .inl reset
  · cases h
    exact .inr (emits (begin_chan s m)
      (ustepsRun_rel _ (.refl m) .trans (ustepRun_targetByEmission m) _))
  · cases h
    exact .inr (emits ((chan_mk s.begin m ..).trans (begin_chan s m)) (sendRun_targetByEmission m _ d id _))
  · obtain rfl := step.receiver_of_ne ne
    exact .inr cause

end Sys2Proof.Machine
end

section
/-! SUPPORT. 60_exceptions.md R218: the services' updates commute, because they write different registers. -/

namespace Sys2Proof.Machine

/-- What a sample makes of a channel. -/
def sampled (cfg : Config) (c : Channel) : Channel :=
  decoderStep cfg.encoderFaultReport (comboKey c.qphase (phaseCode cfg.phaseMap (pinWord c.encA c.encB))) c

/-- A sample writes its motor's channel, the outputs apart. -/
theorem sampleRun_begin_out (m : Motor) (s : State) :
    (sampleRun m s).begin = (s.setChan m (sampled s.cfg (s.chan m))).begin := by
  rw [sampleRun, decoderRun_eq]
  rfl

/-- A receiver step and a sample can change places: the one writes TARGET and the receiver's registers, which the other
neither reads nor writes, and the other way round. -/
theorem receive_sample_commute (m : Motor) (b : Byte) (s : State) :
    (sampleRun m (receiveRun b s.begin).begin).begin = (receiveRun b (sampleRun m s.begin).begin).begin := by
  rw [sampleRun_begin_out, sampleRun_begin_out]
  cases class_b : isMsw b with
  | true =>
    rw [receiveRun_msw _ b class_b, receiveRun_msw _ b class_b]
    cases m <;> rfl
  | false =>
    rw [receiveRun_lsw _ b class_b, receiveRun_lsw _ b class_b]
    cases waiting : s.rxState with
    | awaitingMsw =>
      rw [receiveLsw_discards _ _ (by exact waiting), receiveLsw_discards _ _ (by simpa using waiting)]
      cases m <;> rfl
    | awaitingLsw =>
      rw [receiveLsw_completes _ _ (by exact waiting), receiveLsw_completes _ _ (by simpa using waiting)]
      simp only [begin_rxMotor, setChan_rxMotor]
      generalize motorOfBit s.rxMotor = n
      cases m <;> cases n <;> rfl

/-- The samples of the two motors can change places. -/
theorem samples_commute (s : State) :
    (sampleRun .m0 (sampleRun .m1 s.begin).begin).begin = (sampleRun .m1 (sampleRun .m0 s.begin).begin).begin := by
  simp only [sampleRun_begin_out]
  rfl

/-- Settles O41: the two orders write the same registers with the same values. -/
theorem servicesCommute : Obligations.ServicesCommute := fun s =>
  ⟨fun m b => ⟨_, _, rfl, rfl, receive_sample_commute m b s⟩, _, _, rfl, rfl, samples_commute s⟩

end Sys2Proof.Machine
end
section
/-! SUPPORT. 45_sequencer.md R197, 60_exceptions.md R227: the runs of the machine are the sequences of operations, and a
motor node's runs those of its moves. -/

namespace Sys2Proof.Machine

/-- A run of the core whose first step is refused. -/
theorem core_run_refused {s : State} {r : Refusal} (h : step s = .refused r) (k : Nat) :
    Sys2Proof.core.run (k + 1) s = .refused r := by
  have unfolded := Host.Core.run.eq_2 Sys2Proof.core s k
  rw [show Sys2Proof.core.step s = .refused r from h] at unfolded
  exact unfolded

/-- The machine runs the operations whose deliveries its agenda holds, one step each. -/
theorem core_run_deliveries (ops : List Instr) (rest : List Delivery) (s : State) (legal : ∀ i ∈ ops, i.wf = true) :
    Sys2Proof.core.run ops.length { s with agenda := ops.map encode ++ rest } =
      runOps ops { s with agenda := rest } := by
  induction ops generalizing s with
  | nil => rfl
  | cons i ops ih =>
    have later : ∀ j ∈ ops, j.wf = true := fun j mem => legal j (List.mem_cons_of_mem i mem)
    have first : step { s with agenda := (i :: ops).map encode ++ rest } =
        exec i { s with agenda := ops.map encode ++ rest } :=
      step_of_delivery rfl (decodeOfEncode i (legal i List.mem_cons_self))
    rw [exec_agenda] at first
    rw [List.length_cons, runOps, exec_agenda i s rest]
    cases run : exec i s with
    | next t =>
      rw [run] at first
      rw [core_run_succ first]
      exact ih t later
    | refused r =>
      rw [run] at first
      exact core_run_refused first _
    | fault r => exact nomatch r

/-- A move of a run sends a well-formed operation. -/
theorem wf_of_sends {n : NodeMove} {i : Instr} (h : n.sends = some i) : i.wf = true := by
  rcases n with ((_ | _ | _) | _) <;> cases h <;> rfl

/-- The operations that a motor node's moves send run as the moves do. -/
theorem runOps_sends (moves : List NodeMove) (s : State) :
    runOps (moves.filterMap NodeMove.sends) s = .next (nodeRun moves s) := by
  induction moves generalizing s with
  | nil => rfl
  | cons n moves ih =>
    cases h : n.sends with
    | none => rw [List.filterMap_cons_none h, ih, nodeRun, run_of_sends_none h]
    | some i => rw [List.filterMap_cons_some h, runOps_cons s _ _ (exec_of_sends h s), ih, nodeRun]

/-- A delivery that is a move of a run is the delivery of the operation that the move sends. -/
theorem exists_sends_of_delivery {d : Delivery} (h : (nodeMoveOfDelivery d).isSome = true) :
    ∃ (n : NodeMove) (i : Instr), n.sends = some i ∧ encode i = d := by
  obtain ⟨n, hn⟩ := Option.isSome_iff_exists.mp h
  unfold nodeMoveOfDelivery at hn
  split at hn
  next i ok => exact ⟨n, i, (nodeMoveOf_iff i n).mp hn, encodeOfDecode d i ok⟩
  next => cases hn

/-- With an agenda of a motor node's moves a step makes the next one, and leaves such an agenda. -/
theorem step_of_onlyNodeMoves {s : State} (only : s.onlyNodeMoves = true) : ∃ (move : NodeMove) (t : State),
    (∃ i, move.sends = some i ∧ ((s.agenda = [] ∧ i = .ustep) ∨ ∃ rest, s.agenda = encode i :: rest)) ∧
    t = move.run { s with agenda := s.agenda.tail } ∧ step s = .next t ∧ t.onlyNodeMoves = true := by
  cases agenda : s.agenda with
  | nil =>
    refine ⟨.ustep, _, ⟨.ustep, rfl, .inl ⟨rfl, rfl⟩⟩, rfl, ?_, ?_⟩
    · rw [step_of_no_delivery agenda, List.tail_nil, ← agenda]
      exact exec_ustep s
    · rw [State.onlyNodeMoves, nodeMove_keeps_agenda]
      rfl
  | cons d rest =>
    rw [State.onlyNodeMoves, agenda, List.all_cons, Bool.and_eq_true] at only
    obtain ⟨isMove, later⟩ := only
    obtain ⟨n, i, sends, rfl⟩ := exists_sends_of_delivery isMove
    refine ⟨n, _, ⟨i, sends, .inr ⟨rest, rfl⟩⟩, rfl, ?_, ?_⟩
    · rw [step_of_delivery agenda (decode_encode_of_sends sends)]
      exact exec_of_sends sends _
    · rw [State.onlyNodeMoves, nodeMove_keeps_agenda]
      exact later

/-- The deliveries of a RESET and of a motor node's moves make the machine run them. -/
theorem core_run_node (a0 b0 a1 b1 : Bit) (moves : List NodeMove) (rest : List Delivery) (s : State) :
    Sys2Proof.core.run ((moves.filterMap NodeMove.sends).length + 1)
        { s with agenda := encode (.reset a0 b0 a1 b1) :: (moves.filterMap NodeMove.sends).map encode ++ rest } =
      .next (nodeRun moves (construct a0 b0 a1 b1 s.draws { s with agenda := rest }.begin)) := by
  have legal : ∀ i ∈ Instr.reset a0 b0 a1 b1 :: moves.filterMap NodeMove.sends, i.wf = true := by
    intro i mem
    obtain rfl | mem := List.mem_cons.mp mem
    · rfl
    · obtain ⟨n, -, sends⟩ := List.mem_filterMap.mp mem
      exact wf_of_sends sends
  refine (core_run_deliveries _ rest s legal).trans ?_
  rw [runOps_cons _ _ _ (exec_reset a0 b0 a1 b1 _)]
  exact runOps_sends moves _

/-- Settles O56: step consumes one delivery and runs it under an agenda that no operation sees; a motor node's moves are
operations whose deliveries decode. -/
theorem everyInterleavingIsARun : Obligations.EveryInterleavingIsARun :=
  ⟨core_run_deliveries,
    fun a0 b0 a1 b1 moves rest s => ⟨_, exec_reset a0 b0 a1 b1 _, core_run_node a0 b0 a1 b1 moves rest s⟩,
    fun _ => step_of_onlyNodeMoves⟩

end Sys2Proof.Machine
end
